-- ==== Sys2Proof/Config.lean ====
section
/-! DEFINITION. The implementation parameters of R6. -/

namespace Sys2Proof

/-- The three implementation parameters of R6, under the spec's names. -/
structure Params where
  /-- Width in bits of one stream storage word, of the operand bus A and of the response data. -/
  W : Nat
  /-- Number of physical storage words of the BitStream. -/
  NW : Nat
  /-- Capacity of the payload buffer in bytes. -/
  PMAX : Nat
  deriving DecidableEq, Repr

/-- `MAXBITS = NW * W`, "the largest BLEN" (R6). -/
def Params.maxBits (P : Params) : Nat := P.NW * P.W

/-- The constraints column of R6. -/
abbrev Params.Allowed (P : Params) : Prop :=
  (P.W = 16 ∨ P.W = 32 ∨ P.W = 64) ∧ 1 ≤ P.NW ∧ P.maxBits < 2 ^ P.W ∧ 1 ≤ P.PMAX ∧ P.PMAX < 2 ^ P.W

/-- The instance this spec describes: the last column of R6. -/
def Config.given : Params := { W := 64, NW := 2048, PMAX := 8192 }

end Sys2Proof
end

