-- ==== Sys2Proof/Word.lean ====
section
/-! DEFINITION. The number types of the block: bytes, and the bit string of R12. A W-bit word is the natural number
it spells: "Every quantity in this spec is a natural number (unsigned integer) unless it is a bit string" (R10). W is a parameter of the
instance (R6), so the bound `< 2^W` is a clause of `State.Inv` and of `Instr.wf`, not of a type (log 10). -/

namespace Sys2Proof

/-- One payload byte, "an 8-bit number" (R54). -/
abbrev Byte := BitVec 8

/-- A string of stream bits, first-appended bit first (R12). -/
abbrev Bits := List Bool

end Sys2Proof
end

