-- ==== Sys2Proof/Syntax.lean ====
section
/-! DEFINITION. The commands: one constructor per row of R86, and the raw command of R80. -/

namespace Sys2Proof

/-- EncodingMode, the "closed variant set {Numeric, Alphanumeric, Byte/Text, Kanji(unsupported)}" (R18). -/
inductive EncodingMode where
  | numeric
  | alphanumeric
  | byteText
  | kanji
  deriving DecidableEq, Repr

/-- The three modes that have an encoder (R160); "Kanji has no encoder" (R168). -/
inductive SegmentMode where
  | numeric
  | alphanumeric
  | byteText
  deriving DecidableEq, Repr

/-- A command as the port carries it (R80): the 12-bit header CH and the operand A. -/
structure Command where
  ch : BitVec 12
  a : Nat
  deriving DecidableEq, Repr

/-- The 26 commands of R86. A constructor carries the operands its format uses (R83): an immediate of the header, and the operand A
where the format has one; a format that ignores A carries none (R84). -/
inductive Instr where
  /-- R200 -/
  | init
  /-- R201 -/
  | rdstat
  /-- R202, A = version -/
  | setver (v : Nat)
  /-- R203, imm2 -/
  | setecl (e : BitVec 2)
  /-- R204 -/
  | plClr
  /-- R205, imm8 -/
  | plPush (c : Byte)
  /-- R119 -/
  | bsNew
  /-- R120, imm1 -/
  | bsBit (b : BitVec 1)
  /-- R121, width = imm8, value = A -/
  | bsBits (width : BitVec 8) (value : Nat)
  /-- R123 -/
  | bsLen
  /-- R124, A = word index -/
  | bsData (index : Nat)
  /-- R135 -/
  | classify
  /-- R144, A = version -/
  | ccwN (v : Nat)
  /-- R145, A = version -/
  | ccwA (v : Nat)
  /-- R146, A = version -/
  | ccwB (v : Nat)
  /-- R147, A = version -/
  | ccwK (v : Nat)
  /-- R153, imm8 -/
  | acb (c : Byte)
  /-- R172 -/
  | encN
  /-- R173 -/
  | encA
  /-- R174 -/
  | encB
  /-- R175 -/
  | encK
  /-- R188 -/
  | encodeAuto
  /-- R189 -/
  | encodeN
  /-- R190 -/
  | encodeA
  /-- R191 -/
  | encodeB
  /-- R192 -/
  | encodeK
  deriving DecidableEq, Repr

end Sys2Proof
end

