-- ==== Sys2Proof/WellFormed.lean ====
section
/-! DEFINITION. Well-formed commands: an operand that a command uses fits the W wires of the operand bus (R80, R84). The
immediates are bounded by their types. -/

namespace Sys2Proof

/-- The operand A "is the unsigned number A[W-1:0] in 0..2^W-1" (R84). -/
def operandFits (P : Params) (a : Nat) : Bool := decide (a < 2 ^ P.W)

/-- A command of R86 that the port of R80 can carry. -/
def Instr.wf (P : Params) : Instr → Bool
  | .init => true
  | .rdstat => true
  | .setver v => operandFits P v
  | .setecl _ => true
  | .plClr => true
  | .plPush _ => true
  | .bsNew => true
  | .bsBit _ => true
  | .bsBits _ value => operandFits P value
  | .bsLen => true
  | .bsData index => operandFits P index
  | .classify => true
  | .ccwN v => operandFits P v
  | .ccwA v => operandFits P v
  | .ccwB v => operandFits P v
  | .ccwK v => operandFits P v
  | .acb _ => true
  | .encN => true
  | .encA => true
  | .encB => true
  | .encK => true
  | .encodeAuto => true
  | .encodeN => true
  | .encodeA => true
  | .encodeB => true
  | .encodeK => true

end Sys2Proof
end

