-- ==== Sys2Proof/Decode.lean ====
section
/-! DEFINITION. The decoder of R83 to R88, total on all 4096 headers and rejecting by name; after it the encoder; and the opcode
table of R86 as data. -/

namespace Sys2Proof

/-- Why a header is illegal (R88): "a reserved bit of b that is 1, or an msel that is not one of the allowed codes". The last
name is for a value of op above 15, which a 4-bit field does not have ("All sixteen op values are in use"). -/
inductive DecodeError where
  | reservedBits
  | modeCode
  | noSuchOp
  deriving DecidableEq, Repr

/-- `op = CH[11:8]` (R80). -/
def headerOp (ch : BitVec 12) : BitVec 4 := ch.extractLsb' 8 4

/-- `b = CH[7:0]` (R80). -/
def headerImm (ch : BitVec 12) : BitVec 8 := ch.extractLsb' 0 8

/-- `CH[11:0] = {op[3:0], b[7:0]}` (R80). -/
def mkHeader (op : BitVec 4) (b : BitVec 8) : BitVec 12 := op ++ b

/-- The mode codes of R19 and R93: "Numeric=0001, Alphanumeric=0010, Byte/Text=0100, Kanji=1000 (one-hot, not an ordinal)". "The same
four values are the mode codes used in msel and in the MODE register" (R93). -/
def modeCode : EncodingMode → BitVec 4
  | .numeric => 0b0001#4
  | .alphanumeric => 0b0010#4
  | .byteText => 0b0100#4
  | .kanji => 0b1000#4

/-- Reads `msel` as a mode code (R84). -/
def readModeCode (msel : BitVec 4) : Option EncodingMode :=
  if msel = 0b0001#4 then some .numeric
  else if msel = 0b0010#4 then some .alphanumeric
  else if msel = 0b0100#4 then some .byteText
  else if msel = 0b1000#4 then some .kanji
  else none

/-- Formats Z and ZA (R83): all 8 bits of b reserved, must be 0. -/
def formatZ (b : BitVec 8) (i : Instr) : Except DecodeError Instr :=
  if b = 0#8 then .ok i else .error .reservedBits

/-- Format I2 (R83): `imm2 = b[1:0]`, b[7:2] reserved. -/
def formatI2 (b : BitVec 8) (f : BitVec 2 → Instr) : Except DecodeError Instr :=
  if b.extractLsb' 2 6 = 0#6 then .ok (f (b.extractLsb' 0 2)) else .error .reservedBits

/-- Format I1 (R83): `imm1 = b[0]`, b[7:1] reserved. -/
def formatI1 (b : BitVec 8) (f : BitVec 1 → Instr) : Except DecodeError Instr :=
  if b.extractLsb' 1 7 = 0#7 then .ok (f (b.extractLsb' 0 1)) else .error .reservedBits

/-- Formats M and MA (R83): `msel = b[3:0]` a mode code, b[7:4] reserved. -/
def formatM (b : BitVec 8) (f : EncodingMode → Instr) : Except DecodeError Instr :=
  if b.extractLsb' 4 4 = 0#4 then
    match readModeCode (b.extractLsb' 0 4) with
    | some m => .ok (f m)
    | none => .error .modeCode
  else .error .reservedBits

/-- CCW of one column (R85, op 0xC). -/
def ccwInstr (v : Nat) : EncodingMode → Instr
  | .numeric => .ccwN v
  | .alphanumeric => .ccwA v
  | .byteText => .ccwB v
  | .kanji => .ccwK v

/-- ENC of one mode (R85, op 0xE). -/
def encInstr : EncodingMode → Instr
  | .numeric => .encN
  | .alphanumeric => .encA
  | .byteText => .encB
  | .kanji => .encK

/-- ENCODE of a named mode (R85, op 0xF). -/
def encodeInstr : EncodingMode → Instr
  | .numeric => .encodeN
  | .alphanumeric => .encodeA
  | .byteText => .encodeB
  | .kanji => .encodeK

/-- The opcode map of R85, each op with its format of R83; `a` is the operand A. -/
def decodeFields (op : BitVec 4) (b : BitVec 8) (a : Nat) : Except DecodeError Instr :=
  match op.toNat with
  | 0x0 => formatZ b .init
  | 0x1 => formatZ b .rdstat
  | 0x2 => formatZ b (.setver a)
  | 0x3 => formatI2 b .setecl
  | 0x4 => formatZ b .plClr
  | 0x5 => .ok (.plPush b)
  | 0x6 => formatZ b .bsNew
  | 0x7 => formatI1 b .bsBit
  | 0x8 => .ok (.bsBits b a)
  | 0x9 => formatZ b .bsLen
  | 0xA => formatZ b (.bsData a)
  | 0xB => formatZ b .classify
  | 0xC => formatM b (ccwInstr a)
  | 0xD => .ok (.acb b)
  | 0xE => formatM b encInstr
  | 0xF => if b = 0#8 then .ok .encodeAuto else formatM b encodeInstr
  | _ => .error .noSuchOp

/-- The decoder. The operand bus has W wires (R6, R80), so the operand is `A[W-1:0]`. -/
def decode (P : Params) (c : Command) : Except DecodeError Instr :=
  decodeFields (headerOp c.ch) (headerImm c.ch) (c.a % 2 ^ P.W)

/-- `A` where the format uses it; an ignored operand is sent as 0, as the spec's examples do (R91). -/
def operandOf : Instr → Nat
  | .setver v => v
  | .bsBits _ value => value
  | .bsData index => index
  | .ccwN v => v
  | .ccwA v => v
  | .ccwB v => v
  | .ccwK v => v
  | .init | .rdstat | .setecl _ | .plClr | .plPush _ | .bsNew | .bsBit _ | .bsLen | .classify | .acb _
  | .encN | .encA | .encB | .encK | .encodeAuto | .encodeN | .encodeA | .encodeB | .encodeK => 0

/-- The header of a command, from the patterns of R86. -/
def headerOf : Instr → BitVec 12
  | .init => 0x000#12
  | .rdstat => 0x100#12
  | .setver _ => 0x200#12
  | .setecl e => mkHeader 0x3#4 (0#6 ++ e)
  | .plClr => 0x400#12
  | .plPush c => mkHeader 0x5#4 c
  | .bsNew => 0x600#12
  | .bsBit b => mkHeader 0x7#4 (0#7 ++ b)
  | .bsBits width _ => mkHeader 0x8#4 width
  | .bsLen => 0x900#12
  | .bsData _ => 0xA00#12
  | .classify => 0xB00#12
  | .ccwN _ => 0xC01#12
  | .ccwA _ => 0xC02#12
  | .ccwB _ => 0xC04#12
  | .ccwK _ => 0xC08#12
  | .acb c => mkHeader 0xD#4 c
  | .encN => 0xE01#12
  | .encA => 0xE02#12
  | .encB => 0xE04#12
  | .encK => 0xE08#12
  | .encodeAuto => 0xF00#12
  | .encodeN => 0xF01#12
  | .encodeA => 0xF02#12
  | .encodeB => 0xF04#12
  | .encodeK => 0xF08#12

/-- The encoder: the command word of an instruction. -/
def encode (i : Instr) : Command := { ch := headerOf i, a := operandOf i }

/-- One row of the table of R86. -/
structure OpcodeRow where
  mnemonic : String
  pattern : BitVec 12
  mask : BitVec 12
  deriving DecidableEq, Repr

/-- "A header is legal exactly when `CH & mask = match` for one row" (R86). -/
def OpcodeRow.matches (r : OpcodeRow) (ch : BitVec 12) : Bool := ch &&& r.mask == r.pattern

/-- The rows of R86 with op below 0xC. -/
def opcodeRowsLow : List OpcodeRow :=
  [⟨"INIT", 0x000#12, 0xFFF#12⟩, ⟨"RDSTAT", 0x100#12, 0xFFF#12⟩, ⟨"SETVER", 0x200#12, 0xFFF#12⟩,
   ⟨"SETECL", 0x300#12, 0xFFC#12⟩, ⟨"PL.CLR", 0x400#12, 0xFFF#12⟩, ⟨"PL.PUSH", 0x500#12, 0xF00#12⟩,
   ⟨"BS.NEW", 0x600#12, 0xFFF#12⟩, ⟨"BS.BIT", 0x700#12, 0xFFE#12⟩, ⟨"BS.BITS", 0x800#12, 0xF00#12⟩,
   ⟨"BS.LEN", 0x900#12, 0xFFF#12⟩, ⟨"BS.DATA", 0xA00#12, 0xFFF#12⟩, ⟨"CLASSIFY", 0xB00#12, 0xFFF#12⟩]

/-- The rows of R86 with op 0xC and above. -/
def opcodeRowsHigh : List OpcodeRow :=
  [⟨"CCW.N", 0xC01#12, 0xFFF#12⟩, ⟨"CCW.A", 0xC02#12, 0xFFF#12⟩, ⟨"CCW.B", 0xC04#12, 0xFFF#12⟩,
   ⟨"CCW.K", 0xC08#12, 0xFFF#12⟩, ⟨"ACB", 0xD00#12, 0xF00#12⟩,
   ⟨"ENC.N", 0xE01#12, 0xFFF#12⟩, ⟨"ENC.A", 0xE02#12, 0xFFF#12⟩, ⟨"ENC.B", 0xE04#12, 0xFFF#12⟩,
   ⟨"ENC.K", 0xE08#12, 0xFFF#12⟩, ⟨"ENCODE.AUTO", 0xF00#12, 0xFFF#12⟩, ⟨"ENCODE.N", 0xF01#12, 0xFFF#12⟩,
   ⟨"ENCODE.A", 0xF02#12, 0xFFF#12⟩, ⟨"ENCODE.B", 0xF04#12, 0xFFF#12⟩, ⟨"ENCODE.K", 0xF08#12, 0xFFF#12⟩]

/-- "The complete list of legal headers: 26 rows" (R86), written from the table and independently of `decode`. -/
def opcodeRows : List OpcodeRow := opcodeRowsLow ++ opcodeRowsHigh

/-- The mnemonic of a command as R86 spells it. -/
def mnemonicOf : Instr → String
  | .init => "INIT"
  | .rdstat => "RDSTAT"
  | .setver _ => "SETVER"
  | .setecl _ => "SETECL"
  | .plClr => "PL.CLR"
  | .plPush _ => "PL.PUSH"
  | .bsNew => "BS.NEW"
  | .bsBit _ => "BS.BIT"
  | .bsBits _ _ => "BS.BITS"
  | .bsLen => "BS.LEN"
  | .bsData _ => "BS.DATA"
  | .classify => "CLASSIFY"
  | .ccwN _ => "CCW.N"
  | .ccwA _ => "CCW.A"
  | .ccwB _ => "CCW.B"
  | .ccwK _ => "CCW.K"
  | .acb _ => "ACB"
  | .encN => "ENC.N"
  | .encA => "ENC.A"
  | .encB => "ENC.B"
  | .encK => "ENC.K"
  | .encodeAuto => "ENCODE.AUTO"
  | .encodeN => "ENCODE.N"
  | .encodeA => "ENCODE.A"
  | .encodeB => "ENCODE.B"
  | .encodeK => "ENCODE.K"

/-- A command read from one number, numbered as spec/opcode_table.json numbers it: CH in bits 11:0 and the operand A above it
("All commands have one length, 12 + W bits, and one layout", R90); bits from nbits up are 0. Log 9. -/
def tableCommand (nbits w : Nat) : Command :=
  { ch := BitVec.ofNat 12 w, a := w % 2 ^ nbits / 2 ^ 12 }

/-- What the decoder reads from that number, for the instance of R6. -/
def decodeTableWord (nbits w : Nat) : Option Instr :=
  (decode Config.given (tableCommand nbits w)).toOption

end Sys2Proof
end

