-- ==== Sys2Proof/Machine/State.lean ====
section
/-! DEFINITION. The state of the block (R20) as plain data, the model's own input and output fields, the reasons the MODEL can stop,
and the reset state (R38). -/

namespace Sys2Proof.Machine

/-- A memory: (address, value) pairs in strictly rising address order, listing exactly the addresses that hold a value. An unlisted
address reads as no value (log 6). `Memory Byte` is `List Host.Cell`. -/
abbrev Memory (α : Type) := List (Nat × α)

/-- The canonical form: addresses strictly rising. -/
abbrev Memory.wf {α : Type} (m : Memory α) : Prop := (m.map Prod.fst).Pairwise (· < ·)

/-- The BitStream, R20 items 1 and 2: "Its state is BLEN and BW" (R110). -/
structure BitStream where
  /-- BLEN, "logical bit length" (R21). -/
  blen : Nat
  /-- BW, "ordered sequence of fixed-width storage words" (R22). -/
  bw : Memory Nat
  deriving DecidableEq, Repr

/-- The empty stream: "`new()` → empty stream, length 0" (R111). -/
def emptyStream : BitStream := { blen := 0, bw := [] }

/-- A response `(f, d)` (R81). -/
structure Response where
  f : BitVec 3
  d : Nat
  deriving DecidableEq, Repr

/-- What the host can present to the block: a command (R80), or hardware reset (R260), which may come "between any two commands or
instead of the completion of a command" (R262): the command it abandons, if there is one, rides along. Logs 2 and 5. -/
inductive Input where
  | command (c : Command)
  | reset (inFlight : Option Command)
  deriving DecidableEq, Repr

/-- The state: the nine items of R20, and three fields of the model's own (params, rsp, queue; logs 1, 2, 3). -/
structure State where
  /-- The parameters of R6. Not state of the block: the argument `params` of R9, which no step changes (log 1). -/
  params : Params
  /-- BLEN and BW, R20 items 1 and 2. -/
  stream : BitStream
  /-- PLEN, R20 item 3. -/
  plen : Nat
  /-- PBUF, R20 item 4. -/
  pbuf : Memory Byte
  /-- VERSION, R20 item 5; 0 means "not set". -/
  version : BitVec 6
  /-- ECL, R20 item 6. -/
  ecl : BitVec 2
  /-- MODE, R20 item 7: a mode code, or 0 for no mode selected since reset. -/
  mode : BitVec 4
  /-- FAULT, R20 item 8: sticky; 0 means no fault (R29). -/
  fault : BitVec 3
  /-- SEGV, R20 item 9: the stream holds a finished segment (R30). -/
  segv : Bool
  /-- The response of the command executed last; none when no command has been answered since hardware reset (log 3). -/
  rsp : Option Response
  /-- What the host has issued and the block has not taken, oldest first (log 2). -/
  queue : List Input
  deriving DecidableEq, Repr

/-- Why the MODEL stops (not the block: a fault of the block, R221, is a next state). Both are safe: they arise only in a state that is not
well formed (R39), and no run from reset reaches one. -/
inductive Fault where
  /-- Raised by BS.BIT, BS.BITS, BS.DATA, ENC.N, ENC.A, ENC.B when they read a stream word below NWORDS that the memory does not list. Safe. -/
  | streamWordAbsent
  /-- Raised by CLASSIFY, ENC.N, ENC.A, ENC.B and the ENCODE commands when they read a payload byte below PLEN that the memory does not list. Safe. -/
  | payloadByteAbsent
  deriving DecidableEq, Repr

/-- Why the model has no meaning for an instruction. No arm of exec uses it. -/
inductive Refusal where
  /-- Raised by an arm of exec whose instruction has no meaning yet; safe. -/
  | notModelled (mnemonic : String)
  deriving DecidableEq, Repr

/-- The answer of a step or of a meaning. -/
abbrev Result := Host.Outcome State Fault Refusal

/-- The reset state (R38, R260), for the instance of R6; nothing issued and nothing answered. -/
def State.reset : State :=
  { params := Config.given
    stream := emptyStream
    plen := 0
    pbuf := []
    version := 0
    ecl := 0
    mode := 0
    fault := 0
    segv := false
    rsp := none
    queue := [] }

end Sys2Proof.Machine
end

