-- ==== Sys2Proof/Machine/Ops.lean ====
section
/-! DEFINITION. Operations every command shares: reading and writing a memory, answering, raising a fault (R224), refusing (R227), and
putting the reset state back (R200, R260), the only return from a fault (R231). -/

namespace Sys2Proof.Machine

/-- `M[a]`, or none where no value is listed (log 6). -/
def Memory.read {α : Type} : Memory α → Nat → Option α
  | [], _ => none
  | (k, v) :: m, a => if k = a then some v else Memory.read m a

/-- `M[a] <- v`, keeping the addresses in rising order. -/
def Memory.write {α : Type} : Memory α → Nat → α → Memory α
  | [], a, v => [(a, v)]
  | (k, x) :: m, a, v =>
    if a < k then (a, v) :: (k, x) :: m
    else if a = k then (a, v) :: m
    else (k, x) :: Memory.write m a v

/-- The results of `f` on every element, or none if one of them is none. -/
def lookupAll {α β : Type} (f : α → Option β) : List α → Option (List β)
  | [] => some []
  | x :: xs =>
    match f x, lookupAll f xs with
    | some y, some ys => some (y :: ys)
    | _, _ => none

/-- `ceil(a / b)` (R10). -/
def ceilDiv (a b : Nat) : Nat := (a + b - 1) / b

/-- The seven faults of the block (R221). -/
inductive FaultCode where
  | unsupportedMode
  | malformedNumericRun
  | alphabetViolation
  | streamOverflow
  | payloadOverflow
  | badOperand
  | illegalCommand
  deriving DecidableEq, Repr

/-- The code column of R221. -/
def faultBits : FaultCode → BitVec 3
  | .unsupportedMode => 1#3
  | .malformedNumericRun => 2#3
  | .alphabetViolation => 3#3
  | .streamOverflow => 4#3
  | .payloadOverflow => 5#3
  | .badOperand => 6#3
  | .illegalCommand => 7#3

/-- `resp <- (f, d)` (R13). -/
def State.answered (s : State) (f : BitVec 3) (d : Nat) : State := { s with rsp := some { f := f, d := d } }

/-- The state after `raise Fault(code)` (R224): FAULT, SEGV and the response, "nothing else changes". -/
def State.raised (s : State) (code : FaultCode) : State :=
  { s with fault := faultBits code, segv := false, rsp := some { f := faultBits code, d := 0 } }

/-- The state after a refused command (R226): the response `(FAULT, 0)`, "no state changes". -/
def State.refusedInFault (s : State) : State := s.answered s.fault 0

/-- Every register and memory in its reset state (R38, R200). The parameters, the response and what the host has issued are not
registers of the block (R35, logs 1 to 3). -/
def State.restored (s : State) : State :=
  { s with
    stream := emptyStream
    plen := 0
    pbuf := []
    version := 0
    ecl := 0
    mode := 0
    fault := 0
    segv := false }

/-- Hardware reset (R260, R262): the reset state, and "no response". -/
def State.hardReset (s : State) : State := { s.restored with rsp := none }

/-- End a command with the response `(f, d)`. -/
def respond (f : BitVec 3) (d : Nat) (s : State) : Result := .next (s.answered f d)

/-- `raise Fault(code)` ends the command (R224). -/
def raiseFault (code : FaultCode) (s : State) : Result := .next (s.raised code)

/-- The prologue of R226 for a command other than INIT and RDSTAT: refused in fault state, else the command's own rule. -/
def unlessFaulted (s : State) (body : Result) : Result :=
  if s.fault = 0 then body else .next s.refusedInFault

/-- The prologue of R226 on a header that matches no row: refused in fault state, else IllegalCommand (R88). -/
def illegalCommand (s : State) : Result := unlessFaulted s (raiseFault .illegalCommand s)

end Sys2Proof.Machine
end

