-- ==== Sys2Proof/Machine/Operands.lean ====
section
/-! DEFINITION. The operand forms: the bits of a value (R11), the immediates and the operand A (R84), the payload string P (R14), and the
range checks on a version, on a width and on a word index (R143, R121, R124). -/

namespace Sys2Proof.Machine

/-- `v[i] = (v div 2^i) mod 2` (R11). -/
def bitOf (v i : Nat) : Bool := decide (v / 2 ^ i % 2 = 1)

/-- `imm1` as the bit it is (R84). -/
def imm1Bit (b : BitVec 1) : Bool := b == 1#1

/-- `imm8` as the number 0..255 it is (R84). -/
def imm8Nat (b : BitVec 8) : Nat := b.toNat

/-- A mode with an encoder, among the four modes. -/
def encodingOf : SegmentMode → EncodingMode
  | .numeric => .numeric
  | .alphanumeric => .alphanumeric
  | .byteText => .byteText

/-- `code(m)` (R181). -/
def segmentCode (m : SegmentMode) : BitVec 4 := modeCode (encodingOf m)

/-- `NWORDS = ceil(BLEN / W)` (R22). -/
def State.nwords (s : State) : Nat := ceilDiv s.stream.blen s.params.W

/-- The payload `P = PBUF[0], ..., PBUF[PLEN-1]` (R14); none where a byte below PLEN is not listed, which no run reaches. -/
def State.payload (s : State) : Option (List Byte) := lookupAll s.pbuf.read (List.range s.plen)

/-- A command that reads the payload; "never reads past the payload" (R160). -/
def withPayload (s : State) (body : List Byte → Result) : Result :=
  match s.payload with
  | some p => body p
  | none => .fault .payloadByteAbsent

/-- "if v < 1 or v > 40 then raise Fault(BadOperand)" (R143, R202). -/
def withVersion (v : Nat) (s : State) (body : Result) : Result :=
  if v < 1 ∨ 40 < v then raiseFault .badOperand s else body

/-- "if width > W then raise Fault(BadOperand)" (R121). -/
def withWidth (width : Nat) (s : State) (body : Result) : Result :=
  if s.params.W < width then raiseFault .badOperand s else body

/-- "if index >= ceil(BLEN / W) then raise Fault(BadOperand)", else the word at that index (R124). -/
def withStreamWord (index : Nat) (s : State) (body : Nat → Result) : Result :=
  if s.nwords ≤ index then raiseFault .badOperand s
  else
    match s.stream.bw.read index with
    | some w => body w
    | none => .fault .streamWordAbsent

/-- "if BLEN + n > MAXBITS it raises StreamOverflow (code 4) before appending anything" (R118); `total` is the length the stream
would have. -/
def withRoom (total : Nat) (s : State) (body : Result) : Result :=
  if s.params.maxBits < total then raiseFault .streamOverflow s else body

end Sys2Proof.Machine
end

