-- ==== Sys2Proof/Machine/Flags.lean ====
section
/-! DEFINITION. The flags: SEGV (R30), and the status word that shows FAULT, SEGV, MODE, VERSION and ECL (R31). FAULT is written by
`State.raised` and cleared by `State.restored` only (R29). -/

namespace Sys2Proof.Machine

/-- `SEGV <- 0`: what every successful command does that changes "one of the things the segment was made from or the stream
itself" (R30). -/
def State.segvCleared (s : State) : State := { s with segv := false }

/-- `SEGV <- 1`: "set to 1 by a successful ENCODE.x and by nothing else" (R30). -/
def State.segvSet (s : State) : State := { s with segv := true }

/-- `{ECL[1:0], VERSION[5:0], MODE[3:0], SEGV, FAULT[2:0]}` (R31). -/
def statusBits (s : State) : BitVec 16 :=
  s.ecl ++ (s.version ++ (s.mode ++ (BitVec.ofBool s.segv ++ s.fault)))

/-- `STAT = zext_W(...)` (R31); W is at least 16, so nothing is cut (R99). -/
def statusWord (s : State) : Nat := (statusBits s).toNat

end Sys2Proof.Machine
end

