-- ==== Sys2Proof/Machine/BitStream.lean ====
section
/-! DEFINITION. The BitStream component (R110 to R118) and BS.NEW, BS.BIT, BS.BITS, BS.LEN, BS.DATA (40_bitstream.md). -/

namespace Sys2Proof.Machine

/-- `appendBit(bit)` (R114), given room for it. None where the word it must set a bit of is not listed, which no run reaches. -/
def appendBit (W : Nat) (bit : Bool) (st : BitStream) : Option BitStream :=
  let j := st.blen / W
  let k := W - 1 - st.blen % W
  let bw := if st.blen % W = 0 then st.bw.write j 0 else st.bw
  match bit, bw.read j with
  | false, _ => some { blen := st.blen + 1, bw := bw }
  | true, some w => some { blen := st.blen + 1, bw := bw.write j (w + 2 ^ k) }
  | true, none => none

/-- `appendBits(value, width)` (R115): "for k from width - 1 down to 0: appendBit(value[k])". -/
def appendBits (W value : Nat) : Nat → BitStream → Option BitStream
  | 0, st => some st
  | k + 1, st =>
    match appendBit W (bitOf value k) st with
    | some st' => appendBits W value k st'
    | none => none

/-- `appendBitsWordwise(value, width)` (R117): the word-parallel form, "same result as appendBits(value, width)". No command uses it; it
is there for the equivalence the rule claims. -/
def appendBitsWordwise (W value width : Nat) (st : BitStream) : Option BitStream :=
  if width = 0 then some st
  else
    let v := value % 2 ^ width
    let j := st.blen / W
    let r := st.blen % W
    if r = 0 then some { blen := st.blen + width, bw := st.bw.write j (v * 2 ^ (W - width)) }
    else
      let free := W - r
      match st.bw.read j with
      | none => none
      | some w =>
        if width ≤ free then some { blen := st.blen + width, bw := st.bw.write j (w + v * 2 ^ (free - width)) }
        else
          let rest := width - free
          some { blen := st.blen + width
                 bw := (st.bw.write j (w + v / 2 ^ rest)).write (j + 1) (v % 2 ^ rest * 2 ^ (W - rest)) }

/-- A packet: "intermediate (value, bit-width) pair representing one encoded unit before flattening into the bitstream" (R18). -/
structure Packet where
  value : Nat
  width : Nat
  deriving DecidableEq, Repr

/-- "The packets are appended in order with `appendBits(v_k, w_k)`" (R169). -/
def appendPackets (W : Nat) : List Packet → BitStream → Option BitStream
  | [], st => some st
  | p :: ps, st =>
    match appendBits W p.value p.width st with
    | some st' => appendPackets W ps st'
    | none => none

/-- A command that appends: the new stream, or the model's stop where a stream word is not listed. -/
def withAppended (st : Option BitStream) (body : BitStream → Result) : Result :=
  match st with
  | some st' => body st'
  | none => .fault .streamWordAbsent

/-- R119: BLEN becomes 0, so no word stays architectural (R111); the list drops them (log 7). -/
def execBsNew (s : State) : Result :=
  unlessFaulted s <| respond 0 0 ({ s with stream := emptyStream } : State).segvCleared

/-- R120 -/
def execBsBit (b : BitVec 1) (s : State) : Result :=
  unlessFaulted s <| withRoom (s.stream.blen + 1) s <|
    withAppended (appendBit s.params.W (imm1Bit b) s.stream) fun st =>
      respond 0 st.blen ({ s with stream := st } : State).segvCleared

/-- R121 -/
def execBsBits (width : BitVec 8) (value : Nat) (s : State) : Result :=
  unlessFaulted s <| withWidth (imm8Nat width) s <| withRoom (s.stream.blen + imm8Nat width) s <|
    withAppended (appendBits s.params.W value (imm8Nat width) s.stream) fun st =>
      respond 0 st.blen ({ s with stream := st } : State).segvCleared

/-- R123: SEGV is kept. -/
def execBsLen (s : State) : Result := unlessFaulted s <| respond 0 s.stream.blen s

/-- R124: SEGV is kept. -/
def execBsData (index : Nat) (s : State) : Result :=
  unlessFaulted s <| withStreamWord index s fun w => respond 0 w s

end Sys2Proof.Machine
end

