-- ==== Sys2Proof/Machine/Capacity.lean ====
section
/-! DEFINITION. The CapacityTable ROM (R140 to R143) and CCW.N, CCW.A, CCW.B, CCW.K (42_capacity_table.md). -/

namespace Sys2Proof.Machine

/-- The three version tiers of R141. -/
inductive Tier where
  | upTo9
  | from10to26
  | from27
  deriving DecidableEq, Repr

/-- `tier(v)` (R141), "defined for every natural number" (R142). -/
def tierOf (v : Nat) : Tier :=
  if v ≤ 9 then .upTo9 else if v ≤ 26 then .from10to26 else .from27

/-- The twelve entries of R141. -/
def ccwRom : EncodingMode → Tier → Nat
  | .numeric, .upTo9 => 10
  | .numeric, .from10to26 => 12
  | .numeric, .from27 => 14
  | .alphanumeric, .upTo9 => 9
  | .alphanumeric, .from10to26 => 11
  | .alphanumeric, .from27 => 13
  | .byteText, .upTo9 => 8
  | .byteText, .from10to26 => 16
  | .byteText, .from27 => 16
  | .kanji, .upTo9 => 8
  | .kanji, .from10to26 => 10
  | .kanji, .from27 => 12

/-- `ccw(m, v)` (R141). -/
def ccw (m : EncodingMode) (v : Nat) : Nat := ccwRom m (tierOf v)

/-- The template of R144 to R147: "They read nothing but the ROM and change no state". -/
def lookUpWidth (m : EncodingMode) (v : Nat) (s : State) : Result :=
  unlessFaulted s <| withVersion v s <| respond 0 (ccw m v) s

/-- R144 -/
def execCcwN (v : Nat) (s : State) : Result := lookUpWidth .numeric v s

/-- R145 -/
def execCcwA (v : Nat) (s : State) : Result := lookUpWidth .alphanumeric v s

/-- R146 -/
def execCcwB (v : Nat) (s : State) : Result := lookUpWidth .byteText v s

/-- R147: "this command does not raise UnsupportedMode" (C4). -/
def execCcwK (v : Nat) (s : State) : Result := lookUpWidth .kanji v s

end Sys2Proof.Machine
end

