-- ==== Sys2Proof/Machine/Codebook.lean ====
section
/-! DEFINITION. The AlphanumericCodebook ROM (R150 to R155) and ACB (43_codebook.md). -/

namespace Sys2Proof.Machine

/-- The nine entries of R151 that are neither digits nor letters: (byte, value). -/
def acbPunctuation : List (Nat × Nat) :=
  [(0x20, 36), (0x24, 37), (0x25, 38), (0x2A, 39), (0x2B, 40), (0x2D, 41), (0x2E, 42), (0x2F, 43), (0x3A, 44)]

/-- The ROM by the closed formulas of R151; none is an entry whose valid bit is 0, whose value bits "have no meaning and no rule
reads them" (R150). The byte values are ASCII (log 11). -/
def acbRom (c : Byte) : Option Nat :=
  if 0x30 ≤ c.toNat ∧ c.toNat ≤ 0x39 then some (c.toNat - 0x30)
  else if 0x41 ≤ c.toNat ∧ c.toNat ≤ 0x5A then some (c.toNat - 0x41 + 10)
  else (acbPunctuation.find? fun e => e.1 == c.toNat).map Prod.snd

/-- The membership test: "the hardware uses the ROM's valid bit for this test" (R132, R155). -/
def isAlnum (c : Byte) : Bool := (acbRom c).isSome

/-- R153: SEGV is kept on success. -/
def execAcb (c : Byte) (s : State) : Result :=
  unlessFaulted s <|
    match acbRom c with
    | some v => respond 0 v s
    | none => raiseFault .alphabetViolation s

end Sys2Proof.Machine
end

