-- ==== Sys2Proof/Machine/Classifier.lean ====
section
/-! DEFINITION. The ModeClassifier (R130 to R138) and CLASSIFY (41_classifier.md). -/

namespace Sys2Proof.Machine

/-- "`isNum(c)` is true exactly when `0x30 <= c <= 0x39`" (R131). -/
def isNum (c : Byte) : Bool := decide (0x30 ≤ c.toNat ∧ c.toNat ≤ 0x39)

/-- `classify(P)` (R133). It has no clause for Kanji (R137), and the empty payload is Numeric (R136). -/
def classifyBytes (p : List Byte) : SegmentMode :=
  if p.all isNum then .numeric
  else if p.all isAlnum then .alphanumeric
  else .byteText

/-- R135 -/
def execClassify (s : State) : Result :=
  unlessFaulted s <| withPayload s fun p =>
    respond 0 (segmentCode (classifyBytes p)).toNat
      ({ s with mode := segmentCode (classifyBytes p) } : State).segvCleared

end Sys2Proof.Machine
end

