-- ==== Sys2Proof/Machine/Encoder.lean ====
section
/-! DEFINITION. The SegmentEncoder (R160 to R170) and ENC.N, ENC.A, ENC.B, ENC.K (44_segment_encoder.md). -/

namespace Sys2Proof.Machine

/-- `d(c) = c - 0x30` for a digit byte (R161); none where the byte "fails integer parsing" (R162). -/
def digitOf (c : Byte) : Option Nat := if isNum c then some (c.toNat - 0x30) else none

/-- The runs of R161, cut from the digit values: the width follows the run's character count. -/
def numericRuns : List Nat → List Packet
  | d0 :: d1 :: d2 :: ds => { value := 100 * d0 + 10 * d1 + d2, width := 10 } :: numericRuns ds
  | [d0, d1] => [{ value := 10 * d0 + d1, width := 7 }]
  | [d0] => [{ value := d0, width := 4 }]
  | [] => []

/-- The pairs of R164, cut from the codebook values: both characters go through the codebook (R165). -/
def alphanumericPairs : List Nat → List Packet
  | a :: b :: vs => { value := 45 * a + b, width := 11 } :: alphanumericPairs vs
  | [a] => [{ value := a, width := 6 }]
  | [] => []

/-- The packets of a payload in a mode, or the fault of its alphabet check: MalformedNumericRun when some byte is not a digit (R162),
AlphabetViolation when some byte has no codebook entry (R166), no check in Byte/Text (R167). The check is on the whole
payload before anything is appended. -/
def packetsOf : SegmentMode → List Byte → Except FaultCode (List Packet)
  | .numeric, p =>
    match lookupAll digitOf p with
    | some ds => .ok (numericRuns ds)
    | none => .error .malformedNumericRun
  | .alphanumeric, p =>
    match lookupAll acbRom p with
    | some vs => .ok (alphanumericPairs vs)
    | none => .error .alphabetViolation
  | .byteText, p => .ok (p.map fun c => { value := c.toNat, width := 8 })

/-- `paybits(m, L)` (R170). -/
def payBits : SegmentMode → Nat → Nat
  | .numeric, L => 10 * (L / 3) + (if L % 3 = 0 then 0 else if L % 3 = 1 then 4 else 7)
  | .alphanumeric, L => 11 * (L / 2) + 6 * (L % 2)
  | .byteText, L => 8 * L

/-- The template of R171: the alphabet check, the room check, then the packets on "the stream as it stands". -/
def appendPayload (m : SegmentMode) (s : State) : Result :=
  unlessFaulted s <| withPayload s fun p =>
    match packetsOf m p with
    | .error code => raiseFault code s
    | .ok ps =>
      withRoom (s.stream.blen + payBits m s.plen) s <|
        withAppended (appendPackets s.params.W ps s.stream) fun st =>
          respond 0 st.blen ({ s with stream := st } : State).segvCleared

/-- R172 -/
def execEncN (s : State) : Result := appendPayload .numeric s

/-- R173 -/
def execEncA (s : State) : Result := appendPayload .alphanumeric s

/-- R174 -/
def execEncB (s : State) : Result := appendPayload .byteText s

/-- R175: "always; nothing is read or written first". -/
def execEncK (s : State) : Result := unlessFaulted s (raiseFault .unsupportedMode s)

end Sys2Proof.Machine
end

