-- ==== Sys2Proof/Machine/HostAccess.lean ====
section
/-! DEFINITION. INIT, RDSTAT, SETVER, SETECL, PL.CLR, PL.PUSH (46_host_access.md). -/

namespace Sys2Proof.Machine

/-- R200: "executes whatever FAULT is". -/
def execInit (s : State) : Result := respond 0 0 s.restored

/-- R201: "It executes whatever FAULT is and changes no state." -/
def execRdstat (s : State) : Result := respond s.fault (statusWord s) s

/-- R202 -/
def execSetver (v : Nat) (s : State) : Result :=
  unlessFaulted s <| withVersion v s <|
    respond 0 0 ({ s with version := BitVec.ofNat 6 v } : State).segvCleared

/-- R203: SEGV is kept. -/
def execSetecl (e : BitVec 2) (s : State) : Result :=
  unlessFaulted s <| respond 0 0 { s with ecl := e }

/-- R204: PLEN becomes 0, so no byte stays architectural (R25); the list drops them (log 7). -/
def execPlClr (s : State) : Result :=
  unlessFaulted s <| respond 0 0 ({ s with plen := 0, pbuf := [] } : State).segvCleared

/-- R205 -/
def execPlPush (c : Byte) (s : State) : Result :=
  unlessFaulted s <|
    if s.plen = s.params.PMAX then raiseFault .payloadOverflow s
    else
      respond 0 (s.plen + 1) ({ s with pbuf := s.pbuf.write s.plen c, plen := s.plen + 1 } : State).segvCleared

end Sys2Proof.Machine
end

