-- ==== Sys2Proof/Machine/Orchestrator.lean ====
section
/-! DEFINITION. The Orchestrator (R180 to R187) and ENCODE.AUTO, ENCODE.N, ENCODE.A, ENCODE.B, ENCODE.K (45_orchestrator.md). -/

namespace Sys2Proof.Machine

/-- Steps 1 and 2 of R185: the mode indicator in 4 bits, the character count PLEN in `cw` bits. -/
def headerPackets (m : SegmentMode) (plen cw : Nat) : List Packet :=
  [{ value := (segmentCode m).toNat, width := 4 }, { value := plen, width := cw }]

/-- The effects of R185 on a new, empty stream: steps 1, 2 and 3. -/
def encodeStream (W : Nat) (m : SegmentMode) (plen cw : Nat) (ps : List Packet) : Option BitStream :=
  match appendPackets W (headerPackets m plen cw) emptyStream with
  | some st => appendPackets W ps st
  | none => none

/-- The body of R185 after mode resolution, for a mode that has an encoder and a payload already read. -/
def encodePayload (m : SegmentMode) (p : List Byte) (s : State) : Result :=
  match packetsOf m p with
  | .error code => raiseFault code s
  | .ok ps =>
    let cw := ccw (encodingOf m) s.version.toNat
    withRoom (4 + cw + payBits m s.plen) s <|
      withAppended (encodeStream s.params.W m s.plen cw ps) fun st =>
        respond 0 st.blen ({ s with stream := st, mode := segmentCode m } : State).segvSet

/-- R185 for x other than K: VERSION must be set (R183); the mode is the one named, or the classifier's where none is (R182). -/
def encodeSegment (x : Option SegmentMode) (s : State) : Result :=
  unlessFaulted s <|
    if s.version = 0 then raiseFault .badOperand s
    else withPayload s fun p => encodePayload (x.getD (classifyBytes p)) p s

/-- R188 -/
def execEncodeAuto (s : State) : Result := encodeSegment none s

/-- R189 -/
def execEncodeN (s : State) : Result := encodeSegment (some .numeric) s

/-- R190 -/
def execEncodeA (s : State) : Result := encodeSegment (some .alphanumeric) s

/-- R191 -/
def execEncodeB (s : State) : Result := encodeSegment (some .byteText) s

/-- R192: the first check, "before VERSION, the payload or the stream are looked at". -/
def execEncodeK (s : State) : Result := unlessFaulted s (raiseFault .unsupportedMode s)

end Sys2Proof.Machine
end

