-- ==== Sys2Proof/Machine/Dispatch.lean ====
section
/-! DEFINITION. One arm per command. -/

namespace Sys2Proof.Machine

def exec (i : Instr) (s : State) : Host.Outcome State Fault Refusal :=
  match i with
  | .init => Sys2Proof.Machine.execInit s
  | .rdstat => Sys2Proof.Machine.execRdstat s
  | .setver v => Sys2Proof.Machine.execSetver v s
  | .setecl e => Sys2Proof.Machine.execSetecl e s
  | .plClr => Sys2Proof.Machine.execPlClr s
  | .plPush c => Sys2Proof.Machine.execPlPush c s
  | .bsNew => Sys2Proof.Machine.execBsNew s
  | .bsBit b => Sys2Proof.Machine.execBsBit b s
  | .bsBits width value => Sys2Proof.Machine.execBsBits width value s
  | .bsLen => Sys2Proof.Machine.execBsLen s
  | .bsData index => Sys2Proof.Machine.execBsData index s
  | .classify => Sys2Proof.Machine.execClassify s
  | .ccwN v => Sys2Proof.Machine.execCcwN v s
  | .ccwA v => Sys2Proof.Machine.execCcwA v s
  | .ccwB v => Sys2Proof.Machine.execCcwB v s
  | .ccwK v => Sys2Proof.Machine.execCcwK v s
  | .acb c => Sys2Proof.Machine.execAcb c s
  | .encN => Sys2Proof.Machine.execEncN s
  | .encA => Sys2Proof.Machine.execEncA s
  | .encB => Sys2Proof.Machine.execEncB s
  | .encK => Sys2Proof.Machine.execEncK s
  | .encodeAuto => Sys2Proof.Machine.execEncodeAuto s
  | .encodeN => Sys2Proof.Machine.execEncodeN s
  | .encodeA => Sys2Proof.Machine.execEncodeA s
  | .encodeB => Sys2Proof.Machine.execEncodeB s
  | .encodeK => Sys2Proof.Machine.execEncodeK s

end Sys2Proof.Machine
end

