-- ==== Sys2Proof/Machine/Step.lean ====
section
/-! DEFINITION. One step: the block takes the oldest thing the host has issued, and runs it completely (R62, R82). -/

namespace Sys2Proof.Machine

/-- One step. With nothing issued the block "is idle with its state held" (R241, R263). A reset gives the reset state whatever
command it abandons (R262). A command with a legal header runs (R226); any other header is an illegal command (R88). -/
def step (s : State) : Host.Outcome State Fault Refusal :=
  match s.queue with
  | [] => .next s
  | .reset _ :: rest => .next (({ s with queue := rest } : State).hardReset)
  | .command c :: rest =>
    match decode s.params c with
    | .ok i => exec i { s with queue := rest }
    | .error _ => illegalCommand { s with queue := rest }

/-- The host issues one command ahead of everything else: the command that spec/opcode_table.json's numbering spells (log 9). The next
step runs exactly it (log 8). -/
def State.withFetchWord (s : State) (nbits w : Nat) : State :=
  { s with queue := .command (tableCommand nbits w) :: s.queue }

end Sys2Proof.Machine
end

