-- ==== Sys2Proof/Machine/Pseudo.lean ====
section
/-! DEFINITION. The pseudo-instructions of R92 as command sequences, and a run of such a sequence. -/

namespace Sys2Proof.Machine

/-- `LOAD "c1...cn"`: PL.CLR, then one PL.PUSH per character (R92). -/
def pseudoLoad (p : List Byte) : List Instr := .plClr :: p.map .plPush

/-- `ENCODE` is ENCODE.AUTO (R92). -/
def pseudoEncode : List Instr := [.encodeAuto]

/-- `DUMP`: BS.LEN, then one BS.DATA per word of a stream of that length (R92). -/
def pseudoDump (W blen : Nat) : List Instr := .bsLen :: (List.range (ceilDiv blen W)).map .bsData

/-- `QR "string", v`: SETVER v, LOAD "string", ENCODE.AUTO (R92), "the source's whole call encode()" (R208). -/
def pseudoQr (p : List Byte) (v : Nat) : List Instr := .setver v :: (pseudoLoad p ++ pseudoEncode)

/-- Commands run in the order they are issued, each completely before the next begins (R62). -/
def runAll : List Instr → State → Result
  | [], s => .next s
  | i :: is, s =>
    match exec i s with
    | .next t => runAll is t
    | .fault r => .fault r
    | .refused r => .refused r

end Sys2Proof.Machine
end

