-- ==== Sys2Proof/Safety.lean ====
section
/-! DEFINITION. What a well-formed state and a finished segment are, written from the rules and apart from the meanings: `bin_w(v)` and
`++` (R12), the stream read back bit by bit (R23, R67), the two character sets (R131, R132), the codebook by address (R152), the packets by
index (R161, R164, R167), the segment function (R181), and the well-formed state (R39). -/

namespace Sys2Proof.Machine

/-- `bin_w(v)`: "the string of w bits that spells v mod 2^w most significant bit first" (R12). -/
def bin : Nat → Nat → Bits
  | 0, _ => []
  | w + 1, v => bitOf v w :: bin w v

/-- "the number spelled most significant bit first" by a string (R68). -/
def spelled (l : Bits) : Nat := l.foldl (fun n b => 2 * n + b.toNat) 0

/-- `flatten([(v_1, w_1), ...]) = bin_(w_1)(v_1) ++ ...` (R181). -/
def flatten : List Packet → Bits
  | [] => []
  | p :: ps => bin p.width p.value ++ flatten ps

/-- `bit(i) = BW[i div W][W - 1 - (i mod W)]` (R23 clause b); none where the word is not listed. -/
def bitAt (W : Nat) (st : BitStream) (i : Nat) : Option Bool :=
  (st.bw.read (i / W)).map fun w => bitOf w (W - 1 - i % W)

/-- The whole stream as the string of its BLEN bits (R12, R67). -/
def streamBits (W : Nat) (st : BitStream) : Option Bits := lookupAll (bitAt W st) (List.range st.blen)

/-- The stream of R39 and R23: BW has exactly ceil(BLEN / W) words, each below 2^W, and every bit position of the last word at a logical
index BLEN or above holds 0. -/
abbrev StreamWf (W : Nat) (st : BitStream) : Prop :=
  st.bw.map Prod.fst = List.range (ceilDiv st.blen W) ∧
  (∀ e ∈ st.bw, e.2 < 2 ^ W) ∧
  ∀ k < ceilDiv st.blen W * W - st.blen, bitAt W st (st.blen + k) = some false

/-- The payload of R39: PLEN is at most PMAX and PBUF has exactly PLEN bytes. -/
abbrev PayloadWf (s : State) : Prop :=
  s.plen ≤ s.params.PMAX ∧ s.pbuf.map Prod.fst = List.range s.plen

/-- The Numeric set (R131). -/
def inNumericSet (c : Byte) : Bool := decide (0x30 ≤ c.toNat ∧ c.toNat ≤ 0x39)

/-- The Alphanumeric set as R132 lists it: "45 values total". -/
def alphanumericSet : List Nat :=
  [0x20, 0x24, 0x25, 0x2A, 0x2B, 0x2D, 0x2E, 0x2F] ++ (List.range 10).map (0x30 + ·) ++ [0x3A] ++ (List.range 26).map (0x41 + ·)

/-- Membership in the Alphanumeric set (R132). -/
def inAlphanumericSet (c : Byte) : Bool := alphanumericSet.contains c.toNat

/-- The rows 0x2_ to 0x5_ of the address table of R152, row by row. -/
def codebookRows : List (Option Nat) :=
  [some 36, none, none, none, some 37, some 38, none, none, none, none, some 39, some 40, none, some 41, some 42, some 43] ++
  [some 0, some 1, some 2, some 3, some 4, some 5, some 6, some 7, some 8, some 9, some 44, none, none, none, none, none] ++
  [none, some 10, some 11, some 12, some 13, some 14, some 15, some 16, some 17, some 18, some 19, some 20, some 21, some 22, some 23,
   some 24] ++
  [some 25, some 26, some 27, some 28, some 29, some 30, some 31, some 32, some 33, some 34, some 35, none, none, none, none, none]

/-- "The whole ROM by address" (R152): rows 0x0_, 0x1_ and 0x6_ to 0xF_ have no valid entry. -/
def codebookAt (c : Byte) : Option Nat :=
  if c.toNat < 0x20 then none else (codebookRows[c.toNat - 0x20]?).join

/-- A mode's alphabet precondition: R162, R166, and none for Byte/Text (R167). -/
def meetsAlphabet : SegmentMode → List Byte → Bool
  | .numeric, p => p.all inNumericSet
  | .alphanumeric, p => p.all inAlphanumericSet
  | .byteText, _ => true

/-- The narrowest capable mode (R130, R134). -/
def narrowestMode (p : List Byte) : SegmentMode :=
  if meetsAlphabet .numeric p then .numeric
  else if meetsAlphabet .alphanumeric p then .alphanumeric
  else .byteText

/-- `d(PBUF[i])` of R161. -/
def digitAt (p : List Byte) (i : Nat) : Nat := (p.getD i 0).toNat - 0x30

/-- `ACB(PBUF[i])` of R164. -/
def valueAt (p : List Byte) (i : Nat) : Nat := (codebookAt (p.getD i 0)).getD 0

/-- The packets of a payload that meets the mode's precondition, by index as R161, R164 and R167 write them. -/
def rulePackets : SegmentMode → List Byte → List Packet
  | .numeric, p =>
    let t := 3 * (p.length / 3)
    (List.range (p.length / 3)).map (fun j =>
      { value := 100 * digitAt p (3 * j) + 10 * digitAt p (3 * j + 1) + digitAt p (3 * j + 2), width := 10 }) ++
    (if p.length % 3 = 2 then [{ value := 10 * digitAt p t + digitAt p (t + 1), width := 7 }] else []) ++
    (if p.length % 3 = 1 then [{ value := digitAt p t, width := 4 }] else [])
  | .alphanumeric, p =>
    (List.range (p.length / 2)).map (fun j => { value := 45 * valueAt p (2 * j) + valueAt p (2 * j + 1), width := 11 }) ++
    (if p.length % 2 = 1 then [{ value := valueAt p (p.length - 1), width := 6 }] else [])
  | .byteText, p => (List.range p.length).map fun i => { value := (p.getD i 0).toNat, width := 8 }

/-- `[0, 4, 7][L mod 3]` (R163). -/
def numericTail (L : Nat) : Nat := [0, 4, 7].getD (L % 3) 0

/-- The payload bits of a segment, by the formulas of R194. -/
def ruleBits : SegmentMode → Nat → Nat
  | .numeric, L => 10 * (L / 3) + numericTail L
  | .alphanumeric, L => 11 * (L / 2) + 6 * (L % 2)
  | .byteText, L => 8 * L

/-- The count widths of the three modes, by version (R141, R194). -/
def ruleWidth (m : SegmentMode) (v : Nat) : Nat :=
  let row := match m with
    | .numeric => [10, 12, 14]
    | .alphanumeric => [9, 11, 13]
    | .byteText => [8, 16, 16]
  row.getD (if v ≤ 9 then 0 else if v ≤ 26 then 1 else 2) 0

/-- `code(m)` as a number: "code(N) = 0b0001, code(A) = 0b0010, code(B) = 0b0100" (R181). -/
def ruleCode : SegmentMode → Nat
  | .numeric => 0b0001
  | .alphanumeric => 0b0010
  | .byteText => 0b0100

/-- `segment(m, v, P) = bin_4(code(m)) ++ bin_(ccw(m, v))(L) ++ flatten(packets_m(P))` (R181). -/
def segmentBits (m : SegmentMode) (v : Nat) (p : List Byte) : Bits :=
  bin 4 (ruleCode m) ++ (bin (ruleWidth m v) p.length ++ flatten (rulePackets m p))

/-- Its length, `seglen(m, v, L)` (R181). -/
def segmentLength (m : SegmentMode) (v L : Nat) : Nat := 4 + ruleWidth m v + ruleBits m L

/-- "`FAULT = 0`, `VERSION` is in 1..40, `MODE` is one of N, A, B, and the stream equals `segment(MODE, VERSION, P)`" (R30); VERSION <= 40 is
a clause of `State.Inv`. -/
abbrev SegmentHeld (s : State) : Prop :=
  s.fault = 0 ∧ s.version ≠ 0 ∧
  ∃ m ∈ [SegmentMode.numeric, .alphanumeric, .byteText],
    s.mode.toNat = ruleCode m ∧ s.payload.any (meetsAlphabet m) ∧
    s.payload.map (segmentBits m s.version.toNat) = streamBits s.params.W s.stream

/-- The well-formed state of R39, with the parameters' constraints of R6 and the response's shape (R81: f is FAULT after the command;
R99: d is a W-bit number). FAULT <= 7 and ECL <= 3 hold by their widths. -/
structure State.Inv (s : State) : Prop where
  params : s.params.Allowed
  room : s.stream.blen ≤ s.params.maxBits
  stream : StreamWf s.params.W s.stream
  payload : PayloadWf s
  version : s.version.toNat ≤ 40
  mode : s.mode ∈ [0b0000#4, 0b0001#4, 0b0010#4, 0b0100#4]
  segment : s.segv = true → SegmentHeld s
  response : ∀ r ∈ s.rsp, r.f = s.fault ∧ r.d < 2 ^ s.params.W

/-- The nine items of R20 at the values of R38. -/
abbrev AtReset (s : State) : Prop :=
  s.stream.blen = 0 ∧ s.stream.bw = [] ∧ s.plen = 0 ∧ s.pbuf = [] ∧ s.version = 0 ∧ s.ecl = 0 ∧ s.mode = 0 ∧ s.fault = 0 ∧ s.segv = false

/-- A safe step or command: the model does not stop. -/
def Running (r : Result) : Prop := ∃ t, r = .next t

end Sys2Proof.Machine
end

