-- ==== Sys2Proof/Certificates/Slice0/Obligations.lean ====
section
/-! DEFINITION. The statements for the provers. Each docstring names the rule it formalises. -/

open Sys2Proof
open Sys2Proof.Machine

namespace Sys2Proof.Machine

/-- `raise Fault(code)` as R224 lists its effects: FAULT, SEGV, the response, "nothing else changes". -/
abbrev afterFault (s : State) (code : BitVec 3) : State :=
  { s with fault := code, segv := false, rsp := some { f := code, d := 0 } }

/-- The commands whose header has op 0xF. -/
def isEncode : Instr → Bool
  | .encodeAuto | .encodeN | .encodeA | .encodeB | .encodeK => true
  | _ => false

/-- The commands whose header has op 0xE. -/
def isEnc : Instr → Bool
  | .encN | .encA | .encB | .encK => true
  | _ => false

/-- The read commands of R59. -/
def isRead : Instr → Bool
  | .rdstat | .bsLen | .bsData _ | .ccwN _ | .ccwA _ | .ccwB _ | .ccwK _ | .acb _ => true
  | _ => false

/-- The commands that clear SEGV when they succeed (R30). -/
def clearsSegv : Instr → Bool
  | .setver _ | .plClr | .plPush _ | .bsNew | .bsBit _ | .bsBits _ _ | .encN | .encA | .encB | .encK | .classify => true
  | _ => false

/-- The commands whose format has an operand A (R83). -/
def usesOperand : Instr → Bool
  | .setver _ | .bsBits _ _ | .bsData _ | .ccwN _ | .ccwA _ | .ccwB _ | .ccwK _ => true
  | _ => false

/-- The column "raised by" of R221. -/
def mayRaise (i : Instr) (code : BitVec 3) : Bool :=
  match i with
  | .encK | .encodeK => code == 1#3
  | .encN => code == 2#3 || code == 4#3
  | .encA => code == 3#3 || code == 4#3
  | .encB | .bsBit _ => code == 4#3
  | .encodeN => code == 2#3 || code == 4#3 || code == 6#3
  | .encodeA => code == 3#3 || code == 4#3 || code == 6#3
  | .encodeB | .encodeAuto | .bsBits _ _ => code == 4#3 || code == 6#3
  | .acb _ => code == 3#3
  | .plPush _ => code == 5#3
  | .setver _ | .ccwN _ | .ccwA _ | .ccwB _ | .ccwK _ | .bsData _ => code == 6#3
  | _ => false

/-- What a correct host sends (R235), command by command: legal headers only (a), versions in 1..40 (b), no push into a full buffer (c),
ENCODE.AUTO and no other encoder (d), words below NWORDS only (e). DESIGN CHOICE (log 15): clauses (a) to (e) do not name CCW.x, BS.BIT and BS.BITS,
which can fault on their operand or on a full stream; here a correct host sends CCW.x with a version in 1..40 and appends only what fits, with a
width of at most W. It sends neither ACB nor ENC.x. -/
def correctHostSends (s : State) : Instr → Bool
  | .init | .rdstat | .setecl _ | .plClr | .bsNew | .bsLen | .classify => true
  | .setver v | .ccwN v | .ccwA v | .ccwB v | .ccwK v => decide (1 ≤ v ∧ v ≤ 40)
  | .plPush _ => decide (s.plen < s.params.PMAX)
  | .bsBit _ => decide (s.stream.blen + 1 ≤ s.params.maxBits)
  | .bsBits width _ => decide (width.toNat ≤ s.params.W ∧ s.stream.blen + width.toNat ≤ s.params.maxBits)
  | .bsData j => decide (j < ceilDiv s.stream.blen s.params.W)
  | .encodeAuto => decide (s.version ≠ 0)
  | .acb _ | .encN | .encA | .encB | .encK | .encodeN | .encodeA | .encodeB | .encodeK => false

/-- ENC.x of one mode as R171 to R174 give it, on a payload of its alphabet: in a normal state with a well-formed stream, the room fault, or
the packets' bits at the end of the stream and only the words that hold them changed. -/
def AppendsPayload (i : Instr) (m : SegmentMode) : Prop :=
  ∀ (s : State) (p : List Byte) (l : Bits), s.fault = 0 → 0 < s.params.W → StreamWf s.params.W s.stream →
    s.payload = some p → streamBits s.params.W s.stream = some l → meetsAlphabet m p = true →
    (s.params.maxBits < s.stream.blen + ruleBits m s.plen → exec i s = .next (afterFault s 4#3)) ∧
    (s.stream.blen + ruleBits m s.plen ≤ s.params.maxBits → ∃ st : BitStream,
      exec i s = .next { s with stream := st, segv := false, rsp := some { f := 0, d := s.stream.blen + ruleBits m s.plen } } ∧
      st.blen = s.stream.blen + ruleBits m s.plen ∧ StreamWf s.params.W st ∧
      streamBits s.params.W st = some (l ++ flatten (rulePackets m p)) ∧
      ∀ a, a < s.stream.blen / s.params.W ∨ ceilDiv (s.stream.blen + ruleBits m s.plen) s.params.W ≤ a →
        st.bw.read a = s.stream.bw.read a)

/-- ENC.x of one mode on a payload outside its alphabet (R162, R166): the fault `code`, with nothing appended. -/
def RefusesAlphabet (i : Instr) (m : SegmentMode) (code : BitVec 3) : Prop :=
  ∀ (s : State) (p : List Byte), s.fault = 0 → s.payload = some p → meetsAlphabet m p = false →
    exec i s = .next (afterFault s code)

/-- ENCODE.x as R185 gives it, for the mode `pick P` of a payload in that mode's alphabet: in a normal state, BadOperand with no version, the
room fault, or the segment in a new stream whatever the old one was. -/
def MakesSegment (i : Instr) (pick : List Byte → SegmentMode) : Prop :=
  ∀ s : State, s.fault = 0 →
    (s.version = 0 → exec i s = .next (afterFault s 6#3)) ∧
    ∀ p : List Byte, s.version ≠ 0 → 0 < s.params.W → s.payload = some p → meetsAlphabet (pick p) p = true →
      (s.params.maxBits < segmentLength (pick p) s.version.toNat s.plen → exec i s = .next (afterFault s 4#3)) ∧
      (segmentLength (pick p) s.version.toNat s.plen ≤ s.params.maxBits → ∃ st : BitStream,
        exec i s = .next { s with stream := st
                                  mode := BitVec.ofNat 4 (ruleCode (pick p))
                                  segv := true
                                  rsp := some { f := 0, d := segmentLength (pick p) s.version.toNat s.plen } } ∧
        st.blen = segmentLength (pick p) s.version.toNat s.plen ∧ StreamWf s.params.W st ∧
        streamBits s.params.W st = some (segmentBits (pick p) s.version.toNat p))

/-- ENCODE.x of a named mode, VERSION set, on a payload outside its alphabet (R185): the fault `code`, and the stream as it was. -/
def SegmentRefusesAlphabet (i : Instr) (m : SegmentMode) (code : BitVec 3) : Prop :=
  ∀ (s : State) (p : List Byte), s.fault = 0 → s.version ≠ 0 → s.payload = some p → meetsAlphabet m p = false →
    exec i s = .next (afterFault s code)

end Sys2Proof.Machine

/-! ### Reset and the host-access commands -/

/-- 70_reset_and_hazards.md rules R260, R262; notes/assumptions/2.md, 3.md and 5.md (the queue that stays and the empty response are the
model's) Hardware reset, between commands or instead of a command's completion, gives the reset state and no response. -/
def Obligations.HardwareResetGivesResetState : Prop :=
  AtReset State.reset ∧
  ∀ (s : State) (inFlight : Option Command) (rest : List Input), s.queue = .reset inFlight :: rest →
    step s = .next { State.reset with params := s.params, queue := rest }

/-- R200; R261: "Soft reset: puts every register and memory into its reset state (10_state.md rule R38)." INIT gives the reset state
whatever FAULT is, and no other command changes anything in fault state. -/
def Obligations.InitRestoresResetState : Prop :=
  (∀ (P : Params) (a : Nat), decode P { ch := 0x000#12, a := a } = .ok .init) ∧
  (∀ (P : Params) (ch : BitVec 12) (a : Nat), 0x001 ≤ ch.toNat → ch.toNat ≤ 0x0FF → ∃ e, decode P { ch := ch, a := a } = .error e) ∧
  (∀ s : State, exec .init s =
    .next { State.reset with params := s.params, queue := s.queue, rsp := some { f := 0, d := 0 } }) ∧
  ∀ (i : Instr) (s t : State), s.fault ≠ 0 → i ≠ .init → exec i s = .next t → t = { s with rsp := t.rsp }

/-- R201: "Returns the status word (10_state.md rule R31). It executes whatever FAULT is and changes no state." RDSTAT answers the status
word in every state and changes nothing. -/
def Obligations.RdstatReturnsStatusWord : Prop :=
  (∀ (P : Params) (a : Nat), decode P { ch := 0x100#12, a := a } = .ok .rdstat) ∧
  (∀ (P : Params) (ch : BitVec 12) (a : Nat), 0x101 ≤ ch.toNat → ch.toNat ≤ 0x1FF → ∃ e, decode P { ch := ch, a := a } = .error e) ∧
  (∀ s : State, exec .rdstat s =
    .next { s with rsp := some { f := s.fault
                                 d := s.ecl.toNat * 2 ^ 14 + s.version.toNat * 2 ^ 8 + s.mode.toNat * 2 ^ 4 + s.segv.toNat * 2 ^ 3 + s.fault.toNat } }) ∧
  ∀ (i : Instr) (s t : State) (r : Response), exec i s = .next t → t.rsp = some r → r.f ≠ 0 → r.d ≠ 0 → i = .rdstat

/-- R202: "There is no way to set VERSION back to 0 except INIT." SETVER writes a version in 1..40, faults BadOperand otherwise; only INIT
brings VERSION back to 0. -/
def Obligations.SetverWritesVersionInRange : Prop :=
  (∀ (P : Params) (v : Nat), v < 2 ^ P.W → decode P { ch := 0x200#12, a := v } = .ok (.setver v)) ∧
  (∀ (s : State) (v : Nat), s.fault = 0 → 1 ≤ v → v ≤ 40 → ∃ n : BitVec 6, n.toNat = v ∧
    exec (.setver v) s = .next { s with version := n, segv := false, rsp := some { f := 0, d := 0 } }) ∧
  (∀ (s : State) (v : Nat), s.fault = 0 → ¬ (1 ≤ v ∧ v ≤ 40) → exec (.setver v) s = .next (afterFault s 6#3)) ∧
  ∀ (i : Instr) (s t : State), exec i s = .next t → s.version ≠ 0 → t.version = 0 → i = .init

/-- R203: "Flags: none changed; SEGV is kept, because no bit of the segment depends on ECL." SETECL writes ECL and keeps SEGV. -/
def Obligations.SeteclWritesLevelOnly : Prop :=
  (∀ (P : Params) (a : Nat) (e : BitVec 2), decode P { ch := BitVec.ofNat 12 (0x300 + e.toNat), a := a } = .ok (.setecl e)) ∧
  ∀ (s : State) (e : BitVec 2), s.fault = 0 → exec (.setecl e) s = .next { s with ecl := e, rsp := some { f := 0, d := 0 } }

/-- 46_host_access.md rule R204; 10_state.md rule R25; notes/assumptions/7.md PL.CLR starts a new, empty payload. -/
def Obligations.PlClrEmptiesPayload : Prop :=
  (∀ (P : Params) (a : Nat), decode P { ch := 0x400#12, a := a } = .ok .plClr) ∧
  ∀ s : State, s.fault = 0 →
    exec .plClr s = .next { s with plen := 0, pbuf := [], segv := false, rsp := some { f := 0, d := 0 } }

/-- R205: "Appends one byte to the payload: a store of one byte at the implicit byte index PLEN, followed by an increment of PLEN."
PL.PUSH stores one byte at index PLEN, or faults PayloadOverflow when the buffer is full. -/
def Obligations.PlPushAppendsOneByte : Prop :=
  (∀ (P : Params) (a : Nat) (c : Byte), decode P { ch := BitVec.ofNat 12 (0x500 + c.toNat), a := a } = .ok (.plPush c)) ∧
  (∀ (s : State) (c : Byte), s.fault = 0 → s.plen ≠ s.params.PMAX → ∃ m : Memory Byte,
    exec (.plPush c) s =
      .next { s with pbuf := m, plen := s.plen + 1, segv := false, rsp := some { f := 0, d := s.plen + 1 } } ∧
    m.read s.plen = some c ∧ ∀ a, a ≠ s.plen → m.read a = s.pbuf.read a) ∧
  ∀ (s : State) (c : Byte), s.fault = 0 → s.plen = s.params.PMAX → exec (.plPush c) s = .next (afterFault s 5#3)

/-! ### The BitStream -/

/-- 40_bitstream.md rules R111, R119; notes/assumptions/7.md BS.NEW makes the stream empty. -/
def Obligations.BsNewEmptiesStream : Prop :=
  (∀ (P : Params) (a : Nat), decode P { ch := 0x600#12, a := a } = .ok .bsNew) ∧
  ∀ s : State, s.fault = 0 →
    exec .bsNew s = .next { s with stream := { blen := 0, bw := [] }, segv := false, rsp := some { f := 0, d := 0 } }

/-- R120: "Corner cases: at `BLEN mod W = 0` a new zero word is made first, so appending a 0 bit at a word boundary still makes NWORDS
grow by one." BS.BIT appends one bit at the end of the stream, or faults StreamOverflow when it is full. -/
def Obligations.BsBitAppendsOneBit : Prop :=
  (∀ (P : Params) (a : Nat) (b : BitVec 1), decode P { ch := BitVec.ofNat 12 (0x700 + b.toNat), a := a } = .ok (.bsBit b)) ∧
  (∀ (s : State) (b : BitVec 1) (l : Bits), s.fault = 0 → 0 < s.params.W → StreamWf s.params.W s.stream →
    streamBits s.params.W s.stream = some l → s.stream.blen + 1 ≤ s.params.maxBits → ∃ st : BitStream,
      exec (.bsBit b) s = .next { s with stream := st, segv := false, rsp := some { f := 0, d := s.stream.blen + 1 } } ∧
      st.blen = s.stream.blen + 1 ∧ StreamWf s.params.W st ∧ streamBits s.params.W st = some (l ++ [decide (b = 1#1)]) ∧
      ∀ a, a ≠ s.stream.blen / s.params.W → st.bw.read a = s.stream.bw.read a) ∧
  ∀ (s : State) (b : BitVec 1), s.fault = 0 → s.params.maxBits < s.stream.blen + 1 → exec (.bsBit b) s = .next (afterFault s 4#3)

/-- R121: "`width = W` appends the whole operand; bits of `value` at `width` and above are ignored silently (rule R116); a packet may
straddle two words (rule R117)." BS.BITS appends the low width bits of the operand, most significant first. -/
def Obligations.BsBitsAppendsLowBits : Prop :=
  (∀ (P : Params) (v : Nat) (width : BitVec 8), v < 2 ^ P.W →
    decode P { ch := BitVec.ofNat 12 (0x800 + width.toNat), a := v } = .ok (.bsBits width v)) ∧
  (∀ (s : State) (width : BitVec 8) (v : Nat), s.fault = 0 → s.params.W < width.toNat →
    exec (.bsBits width v) s = .next (afterFault s 6#3)) ∧
  (∀ (s : State) (width : BitVec 8) (v : Nat), s.fault = 0 → width.toNat ≤ s.params.W →
    s.params.maxBits < s.stream.blen + width.toNat → exec (.bsBits width v) s = .next (afterFault s 4#3)) ∧
  ∀ (s : State) (width : BitVec 8) (v : Nat) (l : Bits), s.fault = 0 → 0 < s.params.W → StreamWf s.params.W s.stream →
    streamBits s.params.W s.stream = some l → width.toNat ≤ s.params.W → s.stream.blen + width.toNat ≤ s.params.maxBits →
    ∃ st : BitStream,
      exec (.bsBits width v) s =
        .next { s with stream := st, segv := false, rsp := some { f := 0, d := s.stream.blen + width.toNat } } ∧
      st.blen = s.stream.blen + width.toNat ∧ StreamWf s.params.W st ∧
      streamBits s.params.W st = some (l ++ bin width.toNat (v % 2 ^ width.toNat)) ∧ (width = 0 → st = s.stream) ∧
      ∀ a, a < s.stream.blen / s.params.W ∨ ceilDiv (s.stream.blen + width.toNat) s.params.W ≤ a → st.bw.read a = s.stream.bw.read a

/-- R123: "Encoding: format Z, header 0x900, A ignored. Returns the source's "logical bit length"." BS.LEN answers BLEN and changes
nothing else. -/
def Obligations.BsLenReturnsLength : Prop :=
  (∀ (P : Params) (a : Nat), decode P { ch := 0x900#12, a := a } = .ok .bsLen) ∧
  ∀ s : State, s.fault = 0 → exec .bsLen s = .next { s with rsp := some { f := 0, d := s.stream.blen } }

/-- R124: "Corner cases: the last word's bits beyond BLEN read as 0 (10_state.md rule R23); the read has no side effect and may be
repeated." BS.DATA answers the word at an index below NWORDS and faults BadOperand on any other. -/
def Obligations.BsDataReturnsWordOrFaults : Prop :=
  (∀ (P : Params) (j : Nat), j < 2 ^ P.W → decode P { ch := 0xA00#12, a := j } = .ok (.bsData j)) ∧
  (∀ (s : State) (j : Nat), s.fault = 0 → ceilDiv s.stream.blen s.params.W ≤ j → exec (.bsData j) s = .next (afterFault s 6#3)) ∧
  ∀ (s : State) (j : Nat) (l : Bits), s.fault = 0 → 0 < s.params.W → StreamWf s.params.W s.stream →
    streamBits s.params.W s.stream = some l → j < ceilDiv s.stream.blen s.params.W → ∃ w : Nat,
      exec (.bsData j) s = .next { s with rsp := some { f := 0, d := w } } ∧ s.stream.bw.read j = some w ∧
      ∀ q, q < s.params.W → bitOf w (s.params.W - 1 - q) = l.getD (j * s.params.W + q) false

/-- R67: "Logical bit `i` is then `(BW[i div W] div 2^(W - 1 - (i mod W))) mod 2`. Bits of the last word beyond BLEN are 0 (10_state.md
rule R23)." The bits of the stream are read back through BS.DATA, and bits past BLEN in the last word are 0. -/
def Obligations.PackedViewReadsBackBits : Prop :=
  ∀ (s : State) (l : Bits), s.Inv → s.fault = 0 → streamBits s.params.W s.stream = some l →
    exec .bsLen s = .next { s with rsp := some { f := 0, d := l.length } } ∧
    ∀ i, i < ceilDiv l.length s.params.W * s.params.W → ∃ w : Nat,
      exec (.bsData (i / s.params.W)) s = .next { s with rsp := some { f := 0, d := w } } ∧
      w / 2 ^ (s.params.W - 1 - i % s.params.W) % 2 = (l.getD i false).toNat

/-- R68: "reading back each region reconstructs `v_i mod 2^{w_i}`." Read-back law: any sequence of appends has the total length and every
region reads back its value mod 2^width. -/
def Obligations.ReadBackLawOfAppends : Prop :=
  ∀ (W : Nat) (ps : List Packet), 0 < W → (∀ p ∈ ps, p.width ≤ W) → ∃ (st : BitStream) (l : Bits),
    appendPackets W ps { blen := 0, bw := [] } = some st ∧ StreamWf W st ∧ st.blen = (ps.map Packet.width).sum ∧
    streamBits W st = some l ∧ l = flatten ps ∧
    ∀ (k : Nat) (p : Packet), ps[k]? = some p →
      spelled ((l.drop ((ps.take k).map Packet.width).sum).take p.width) = p.value % 2 ^ p.width

/-- 40_bitstream.md rule R117 The word-parallel append and the bit-by-bit append give the same stream. -/
def Obligations.WordwiseAppendEqualsBitwise : Prop :=
  ∀ (W v width : Nat) (st : BitStream), 0 < W → width ≤ W → StreamWf W st →
    appendBitsWordwise W v width st = appendBits W v width st

/-- R122: "`BS.BITS w, v` has the same effect on BLEN and BW as the `w` commands `BS.BIT v[w-1]`, ..., `BS.BIT v[0]` in that order, when
all of them fit." BS.BITS w, v has the effect of the w commands BS.BIT v[w-1] ... v[0]. -/
def Obligations.BsBitsEqualsRepeatedBsBit : Prop :=
  (∀ (s : State) (width : BitVec 8) (v : Nat), s.fault = 0 → 0 < s.params.W → StreamWf s.params.W s.stream →
    width.toNat ≤ s.params.W → s.stream.blen + width.toNat ≤ s.params.maxBits → ∃ t u : State,
      exec (.bsBits width v) s = .next t ∧
      runAll ((bin width.toNat v).map fun b => .bsBit (BitVec.ofBool b)) s = .next u ∧ t.stream = u.stream) ∧
  ∀ (s : State) (v : Nat), 0 < s.params.W → exec (.bsBits 1#8 v) s = exec (.bsBit (BitVec.ofBool (bitOf v 0))) s

/-- 10_state.md rule R39 (the bijection); 10_state.md rule R23 Every bit string is the reading of exactly one well-formed stream, and
every well-formed stream has a reading of BLEN bits. -/
def Obligations.StreamsAndBitStringsCorrespond : Prop :=
  ∀ W : Nat, 0 < W →
    (∀ l : Bits, ∃ st : BitStream, StreamWf W st ∧ streamBits W st = some l ∧
      ∀ st' : BitStream, StreamWf W st' → streamBits W st' = some l → st' = st) ∧
    ∀ st : BitStream, StreamWf W st → ∃ l : Bits, streamBits W st = some l ∧ l.length = st.blen

/-- 10_state.md rule R21; 40_bitstream.md rule R125 No command but INIT, BS.NEW and ENCODE changes a bit already in the stream. -/
def Obligations.OnlyEmptyingCommandsLoseBits : Prop :=
  ∀ (i : Instr) (s t : State) (l : Bits), 0 < s.params.W → StreamWf s.params.W s.stream →
    streamBits s.params.W s.stream = some l → exec i s = .next t → i ≠ .init → i ≠ .bsNew → isEncode i = false →
    ∃ l' : Bits, streamBits s.params.W t.stream = some (l ++ l')

/-- 20_memory.md rule R53 (derived from R50 and R51) Codeword k of the stream is the k-th big-endian byte of the words. -/
def Obligations.CodewordsAreBigEndianBytes : Prop :=
  ∀ (s : State) (l : Bits) (k w : Nat), s.Inv → streamBits s.params.W s.stream = some l → 8 * k + 8 ≤ l.length →
    s.stream.bw.read (k / (s.params.W / 8)) = some w →
    spelled ((l.drop (8 * k)).take 8) = w / 2 ^ (s.params.W - 8 - 8 * (k % (s.params.W / 8))) % 256

/-! ### Look-ups and the classifier -/

/-- R144; R145; R146; R147: "Corner cases: this command does not raise UnsupportedMode." CCW.N, CCW.A, CCW.B and CCW.K answer the capacity
table's width, or BadOperand outside 1..40. -/
def Obligations.CcwReturnsTableWidth : Prop :=
  (∀ (P : Params) (v : Nat), v < 2 ^ P.W → decode P { ch := 0xC01#12, a := v } = .ok (.ccwN v) ∧
    decode P { ch := 0xC02#12, a := v } = .ok (.ccwA v) ∧ decode P { ch := 0xC04#12, a := v } = .ok (.ccwB v) ∧
    decode P { ch := 0xC08#12, a := v } = .ok (.ccwK v)) ∧
  (∀ (s : State) (v : Nat), s.fault = 0 → 1 ≤ v → v ≤ 40 →
    exec (.ccwN v) s = .next { s with rsp := some { f := 0, d := if v ≤ 9 then 10 else if v ≤ 26 then 12 else 14 } } ∧
    exec (.ccwA v) s = .next { s with rsp := some { f := 0, d := if v ≤ 9 then 9 else if v ≤ 26 then 11 else 13 } } ∧
    exec (.ccwB v) s = .next { s with rsp := some { f := 0, d := if v ≤ 9 then 8 else 16 } } ∧
    exec (.ccwK v) s = .next { s with rsp := some { f := 0, d := if v ≤ 9 then 8 else if v ≤ 26 then 10 else 12 } }) ∧
  ∀ (s : State) (v : Nat), s.fault = 0 → ¬ (1 ≤ v ∧ v ≤ 40) →
    exec (.ccwN v) s = .next (afterFault s 6#3) ∧ exec (.ccwA v) s = .next (afterFault s 6#3) ∧
    exec (.ccwB v) s = .next (afterFault s 6#3) ∧ exec (.ccwK v) s = .next (afterFault s 6#3)

/-- R153; R152: "The lookup never returns a made-up value for such a byte." ACB answers the codebook value of a byte of the alphabet and
AlphabetViolation for any other byte. -/
def Obligations.AcbReturnsCodebookValue : Prop :=
  (∀ (P : Params) (a : Nat) (c : Byte), decode P { ch := BitVec.ofNat 12 (0xD00 + c.toNat), a := a } = .ok (.acb c)) ∧
  (∀ (s : State) (c : Byte) (v : Nat), s.fault = 0 → codebookAt c = some v →
    exec (.acb c) s = .next { s with rsp := some { f := 0, d := v } }) ∧
  ∀ (s : State) (c : Byte), s.fault = 0 → codebookAt c = none → exec (.acb c) s = .next (afterFault s 3#3)

/-- R154; R155: "The map is injective: the 45 valid bytes have the 45 distinct values 0..44" The codebook's closed formulas, its table by
address and the membership set agree, and values are distinct. -/
def Obligations.CodebookMatchesItsAddressTable : Prop :=
  (∀ c : Byte, acbRom c = codebookAt c ∧ isAlnum c = inAlphanumericSet c) ∧
  (∀ (c c' : Byte) (v : Nat), acbRom c = some v → acbRom c' = some v → c = c') ∧
  (∀ (c : Byte) (v : Nat), acbRom c = some v → v ≤ 44) ∧
  ((List.range 256).countP fun c => isAlnum (BitVec.ofNat 8 c)) = 45 ∧
  ∀ (c c' : Byte) (v v' : Nat), acbRom c = some v → acbRom c' = some v' → (45 * v + v') / 45 = v ∧ (45 * v + v') % 45 = v'

/-- R133; R135: "Corner cases: the empty payload gives Numeric (rule R136)" CLASSIFY answers the narrowest capable mode and stores it in
MODE. -/
def Obligations.ClassifySelectsNarrowestMode : Prop :=
  (∀ (P : Params) (a : Nat), decode P { ch := 0xB00#12, a := a } = .ok .classify) ∧
  ∀ (s : State) (p : List Byte), s.fault = 0 → s.payload = some p → ∃ m : BitVec 4,
    exec .classify s = .next { s with mode := m, segv := false, rsp := some { f := 0, d := m.toNat } } ∧
    ((∀ c ∈ p, inNumericSet c = true) → m = 0b0001#4) ∧
    ((∃ c ∈ p, inNumericSet c = false) → (∀ c ∈ p, inAlphanumericSet c = true) → m = 0b0010#4) ∧
    ((∃ c ∈ p, inAlphanumericSet c = false) → m = 0b0100#4)

/-- R138: "Hence a command that encodes in the mode the classifier chose (`ENCODE.AUTO`) never raises MalformedNumericRun or
AlphabetViolation." The classifier's mode meets its encoder's precondition, so ENCODE.AUTO never raises an alphabet or mode fault. -/
def Obligations.ClassifierGuaranteesAlphabet : Prop :=
  (∀ p : List Byte, classifyBytes p = narrowestMode p ∧ meetsAlphabet (classifyBytes p) p = true ∧
    ∃ ps, packetsOf (classifyBytes p) p = .ok ps) ∧
  ∀ s t : State, s.fault = 0 → exec .encodeAuto s = .next t → t.fault ≠ 1 ∧ t.fault ≠ 2 ∧ t.fault ≠ 3

/-! ### The encoders -/

/-- R161; R164: "Runs are cut from index 0; only the last run can be shorter than 3." The encoders make the packets the rules write by
index, and fault exactly outside their alphabet. -/
def Obligations.PacketsFollowTheIndexRules : Prop :=
  (∀ (m : SegmentMode) (p : List Byte), meetsAlphabet m p = true → packetsOf m p = .ok (rulePackets m p)) ∧
  (∀ p : List Byte, meetsAlphabet .numeric p = false → packetsOf .numeric p = .error .malformedNumericRun) ∧
  ∀ p : List Byte, meetsAlphabet .alphanumeric p = false → packetsOf .alphanumeric p = .error .alphabetViolation

/-- R163; R170: "Numeric packet count for length L = ⌈L/3⌉; trailing-group width follows {1→4, 2→7, 3→10} bits." Packet counts, the width
of each packet and total payload bits of the three modes. -/
def Obligations.PacketCountsAndWidths : Prop :=
  ∀ (m : SegmentMode) (p : List Byte) (ps : List Packet), packetsOf m p = .ok ps →
    (ps.map Packet.width).sum = ruleBits m p.length ∧ (flatten ps).length = payBits m p.length ∧
    ps.length = (match m with | .numeric => ceilDiv p.length 3 | .alphanumeric => ceilDiv p.length 2 | .byteText => p.length) ∧
    ps.map Packet.width = (match m with
      | .numeric => List.replicate (p.length / 3) 10 ++ (if p.length % 3 = 1 then [4] else if p.length % 3 = 2 then [7] else [])
      | .alphanumeric => List.replicate (p.length / 2) 11 ++ (if p.length % 2 = 1 then [6] else [])
      | .byteText => List.replicate p.length 8) ∧
    ∀ q ∈ ps, q.value < 2 ^ q.width

/-- R172: "empty payload appends nothing and succeeds; one digit gives one 4-bit packet; two digits one 7-bit packet; leading zeros are
kept as width, not as value." ENC.N appends the payload's packets to the stream as it stands. -/
def Obligations.EncNumericAppendsPayloadPackets : Prop :=
  (∀ (P : Params) (a : Nat), decode P { ch := 0xE01#12, a := a } = .ok .encN) ∧ AppendsPayload .encN .numeric ∧ RefusesAlphabet .encN .numeric 2#3

/-- R173: "Corner cases: empty payload appends nothing; one character gives one 6-bit packet; digits are legal;" ENC.A appends the
payload's packets to the stream as it stands. -/
def Obligations.EncAlphanumericAppendsPayloadPackets : Prop :=
  (∀ (P : Params) (a : Nat), decode P { ch := 0xE02#12, a := a } = .ok .encA) ∧ AppendsPayload .encA .alphanumeric ∧ RefusesAlphabet .encA .alphanumeric 3#3

/-- R174: "Faults: StreamOverflow only. Corner cases: empty payload appends nothing;" ENC.B appends the payload's packets to the stream as
it stands. -/
def Obligations.EncByteAppendsPayloadPackets : Prop :=
  (∀ (P : Params) (a : Nat), decode P { ch := 0xE04#12, a := a } = .ok .encB) ∧ AppendsPayload .encB .byteText

/-- R175; R192: "Raises UnsupportedMode (code 1) as its first check, before VERSION, the payload or the stream are looked at" ENC.K and
ENCODE.K always enter UnsupportedMode and touch nothing else. -/
def Obligations.KanjiAlwaysUnsupported : Prop :=
  (∀ (P : Params) (a : Nat), decode P { ch := 0xE08#12, a := a } = .ok .encK ∧ decode P { ch := 0xF08#12, a := a } = .ok .encodeK) ∧
  ∀ s : State, s.fault = 0 → exec .encK s = .next (afterFault s 1#3) ∧ exec .encodeK s = .next (afterFault s 1#3)

/-! ### The Orchestrator -/

/-- R188: "The body of rule R185 with `m = classify(P)`. Faults: BadOperand (VERSION not set), StreamOverflow; never MalformedNumericRun
or AlphabetViolation" ENCODE.AUTO makes the segment of the narrowest mode in a new stream. -/
def Obligations.EncodeAutoMakesSegment : Prop :=
  (∀ (P : Params) (a : Nat), decode P { ch := 0xF00#12, a := a } = .ok .encodeAuto) ∧
  MakesSegment .encodeAuto narrowestMode ∧ ∀ p : List Byte, meetsAlphabet (narrowestMode p) p = true

/-- R189; R190; R191: "Faults: BadOperand, AlphabetViolation (some byte is outside the 45-symbol alphabet), StreamOverflow. Corner cases:
a payload of digits only is accepted and encoded in Alphanumeric;" ENCODE.N, ENCODE.A and ENCODE.B make the segment of the mode they name.
-/
def Obligations.EncodeNamedMakesSegment : Prop :=
  (∀ (P : Params) (a : Nat), decode P { ch := 0xF01#12, a := a } = .ok .encodeN ∧
    decode P { ch := 0xF02#12, a := a } = .ok .encodeA ∧ decode P { ch := 0xF04#12, a := a } = .ok .encodeB) ∧
  MakesSegment .encodeN (fun _ => .numeric) ∧ MakesSegment .encodeA (fun _ => .alphanumeric) ∧
  MakesSegment .encodeB (fun _ => .byteText) ∧
  SegmentRefusesAlphabet .encodeN .numeric 2#3 ∧ SegmentRefusesAlphabet .encodeA .alphanumeric 3#3

/-- 45_orchestrator.md rule R181; 30_encoding.md rule R96; 95_test_vectors.md program P4 The stream of ENCODE is the one built by hand
from BS.NEW, BS.BITS and ENC of the same mode. -/
def Obligations.SegmentEqualsHandBuiltStream : Prop :=
  ∀ (s : State) (p : List Byte) (x : Instr × Instr × SegmentMode),
    x ∈ [(Instr.encN, Instr.encodeN, SegmentMode.numeric), (.encA, .encodeA, .alphanumeric), (.encB, .encodeB, .byteText)] →
    s.Inv → s.fault = 0 → s.version ≠ 0 → s.payload = some p → meetsAlphabet x.2.2 p = true →
    segmentLength x.2.2 s.version.toNat s.plen ≤ s.params.maxBits → ∃ t u : State,
      runAll [.bsNew, .bsBits 4#8 (ruleCode x.2.2), .bsBits (BitVec.ofNat 8 (ruleWidth x.2.2 s.version.toNat)) s.plen, x.1] s = .next t ∧
      exec x.2.1 s = .next u ∧ t.stream = u.stream ∧ t.segv = false ∧ u.segv = true

/-- R193: "The segment is a function of (m, VERSION, P) alone; the same inputs always give the same stream, whatever the stream, MODE or
SEGV held before." The segment depends on the mode, VERSION and the payload alone. -/
def Obligations.SegmentDependsOnInputsOnly : Prop :=
  ∀ (i : Instr) (s s' t t' : State), isEncode i = true → s.fault = 0 → s'.fault = 0 → s.params = s'.params →
    s.version = s'.version → s.plen = s'.plen → s.pbuf = s'.pbuf → exec i s = .next t → exec i s' = .next t' →
    t.fault = t'.fault ∧ t.rsp = t'.rsp ∧ (t.fault = 0 → t.stream = t'.stream ∧ t.mode = t'.mode ∧ t.segv = t'.segv)

/-- R8: "With the instance values, an `ENCODE` command never raises StreamOverflow, because the longest segment is a Byte/Text segment of
PMAX bytes in a version of 10 or more" With the instance parameters ENCODE never raises StreamOverflow. -/
def Obligations.GivenInstanceEncodeFits : Prop :=
  (∀ (i : Instr) (s t : State), isEncode i = true → s.params = { W := 64, NW := 2048, PMAX := 8192 } → s.fault = 0 →
    PayloadWf s → exec i s = .next t → t.fault ≠ 4) ∧
  (∀ (m : SegmentMode) (v L : Nat), L ≤ 8192 → segmentLength m v L ≤ 65556) ∧
  ∀ v : Nat, 10 ≤ v → segmentLength .byteText v 8192 = 65556

/-- R187: "so when `PLEN >= 2^cw` the field holds `PLEN mod 2^cw` and no fault is raised" The count field of a segment holds PLEN mod
2^ccw, and a count that does not fit raises no fault. -/
def Obligations.CountFieldHoldsLengthModuloWidth : Prop :=
  (∀ (s : State) (p : List Byte) (x : Instr × SegmentMode),
    x ∈ [(Instr.encodeN, SegmentMode.numeric), (.encodeA, .alphanumeric), (.encodeB, .byteText)] →
    s.Inv → s.fault = 0 → s.version ≠ 0 → s.payload = some p → meetsAlphabet x.2 p = true →
    segmentLength x.2 s.version.toNat s.plen ≤ s.params.maxBits → ∃ (t : State) (l : Bits),
      exec x.1 s = .next t ∧ t.fault = 0 ∧ streamBits t.params.W t.stream = some l ∧ spelled (l.take 4) = ruleCode x.2 ∧
      spelled ((l.drop 4).take (ruleWidth x.2 s.version.toNat)) = s.plen % 2 ^ ruleWidth x.2 s.version.toNat) ∧
  (∀ v : Nat, 256 ≤ 2 ^ ruleWidth .byteText v ∧ 512 ≤ 2 ^ ruleWidth .alphanumeric v ∧ 1024 ≤ 2 ^ ruleWidth .numeric v) ∧
  256 % 2 ^ ruleWidth .byteText 1 = 0 ∧ 512 % 2 ^ ruleWidth .alphanumeric 1 = 0 ∧ 1024 % 2 ^ ruleWidth .numeric 1 = 0

/-- R194: "The shortest segment is the empty Byte/Text payload at versions 1 to 9, 12 bits (reachable only with `ENCODE.B`); the shortest
that `ENCODE.AUTO` produces is the empty Numeric one, 14 bits." The length of a finished segment follows the formulas, and none is shorter
than 12 bits, or 14 with ENCODE.AUTO. -/
def Obligations.SegmentLengthsAndShortestSegment : Prop :=
  (∀ (i : Instr) (s t : State), isEncode i = true → s.Inv → s.fault = 0 → exec i s = .next t → t.fault = 0 →
    t.rsp = some { f := 0, d := t.stream.blen } ∧ 12 ≤ t.stream.blen ∧ (i = .encodeAuto → 14 ≤ t.stream.blen) ∧
    (t.stream.blen = 12 → i = .encodeB ∧ t.mode = 0b0100#4 ∧ s.plen = 0 ∧ s.version.toNat ≤ 9) ∧
    (i = .encodeAuto → t.stream.blen = 14 → t.mode = 0b0001#4 ∧ s.plen = 0) ∧
    ((t.mode = 0b0001#4 ∧ t.stream.blen =
        4 + (if s.version.toNat ≤ 9 then 10 else if s.version.toNat ≤ 26 then 12 else 14) + 10 * (s.plen / 3) + numericTail s.plen) ∨
     (t.mode = 0b0010#4 ∧ t.stream.blen =
        4 + (if s.version.toNat ≤ 9 then 9 else if s.version.toNat ≤ 26 then 11 else 13) + 11 * (s.plen / 2) + 6 * (s.plen % 2)) ∨
     (t.mode = 0b0100#4 ∧ t.stream.blen = 4 + (if s.version.toNat ≤ 9 then 8 else 16) + 8 * s.plen))) ∧
  ∀ v : Nat, v ≤ 9 → segmentLength .byteText v 0 = 12 ∧ segmentLength .numeric v 0 = 14

/-- 46_host_access.md rule R208; 30_encoding.md rule R92; notes/assumptions/2.md and 3.md (the queue it fills and empties and the response
field are the model's) SETVER, PL.CLR, one PL.PUSH per byte and ENCODE.AUTO, issued as encoded commands, end in the finished segment. -/
def Obligations.WholeCallProducesSegment : Prop :=
  ∀ (s : State) (p : List Byte) (v : Nat), s.Inv → s.fault = 0 → 1 ≤ v → v ≤ 40 → p.length ≤ s.params.PMAX →
    segmentLength (narrowestMode p) v p.length ≤ s.params.maxBits → ∃ t : State,
      Host.Core.run Sys2Proof.core (p.length + 3)
        { s with queue := (pseudoQr p v).map fun i => .command (encode i) } = .next t ∧
      t.fault = 0 ∧ t.segv = true ∧ t.version.toNat = v ∧ t.payload = some p ∧ t.mode.toNat = ruleCode (narrowestMode p) ∧
      streamBits t.params.W t.stream = some (segmentBits (narrowestMode p) v p) ∧
      t.rsp = some { f := 0, d := segmentLength (narrowestMode p) v p.length } ∧ t.queue = []

/-! ### Faults, refusal, priority -/

/-- R224; R225: "Every rule makes all its checks before its first write (00_scope.md rule R13), so when a fault is raised the command has
changed nothing: the state is the state before the command with FAULT and SEGV updated." A command that raises a fault changes FAULT, SEGV
and the response and nothing else. -/
def Obligations.FaultsArePrecise : Prop :=
  ∀ (i : Instr) (s t : State), s.fault = 0 → exec i s = .next t → t.fault ≠ 0 →
    t = afterFault s t.fault ∧ mayRaise i t.fault = true

/-- R227: "In it every command but INIT and RDSTAT is refused: it has no effect at all, not even on SEGV (already 0), and its response is
`(FAULT, 0)`." In fault state every command but INIT and RDSTAT, and every illegal header, is refused with no effect. -/
def Obligations.FaultStateRefusesCommands : Prop :=
  (∀ (i : Instr) (s : State), s.fault ≠ 0 → i ≠ .init → i ≠ .rdstat →
    exec i s = .next { s with rsp := some { f := s.fault, d := 0 } }) ∧
  ∀ (s : State) (c : Command) (rest : List Input), s.fault ≠ 0 → s.queue = .command c :: rest →
    (∀ r ∈ opcodeRows, r.matches c.ch = false) →
    step s = .next { s with queue := rest, rsp := some { f := s.fault, d := 0 } }

/-- R88: "In a state with `FAULT = 0` an illegal header raises IllegalCommand (code 7, 60_exceptions.md rule R221) and does nothing else;
in fault state it is refused like any other command." A header that matches no row enters IllegalCommand in a normal state and is refused
in fault state. -/
def Obligations.IllegalHeaderRaisesIllegalCommand : Prop :=
  (∀ (s : State) (c : Command) (rest : List Input), s.fault = 0 → s.queue = .command c :: rest →
    (∀ r ∈ opcodeRows, r.matches c.ch = false) → step s = .next (afterFault { s with queue := rest } 7#3)) ∧
  (∀ (s : State) (c : Command) (rest : List Input), s.fault ≠ 0 → s.queue = .command c :: rest →
    (∀ r ∈ opcodeRows, r.matches c.ch = false) → step s = .next { s with queue := rest, rsp := some { f := s.fault, d := 0 } }) ∧
  (∀ (P : Params) (op : BitVec 4) (a : Nat), ∃ (b : BitVec 8) (i : Instr), decode P { ch := op ++ b, a := a } = .ok i) ∧
  ∀ (P : Params) (c : Command) (e : DecodeError), decode P c = .error e →
    (e = .reservedBits ∧ c.ch.toNat % 256 ≠ 0) ∨
    (e = .modeCode ∧ 0xC00 ≤ c.ch.toNat ∧ c.ch.toNat % 256 < 16 ∧ c.ch.toNat % 256 ∉ [1, 2, 4, 8])

/-- 60_exceptions.md rule R228 (its order and its examples) Kanji before BadOperand before the alphabet before the room check. -/
def Obligations.ChecksComeInPriorityOrder : Prop :=
  ∀ s : State, s.fault = 0 →
    exec .encodeK s = .next (afterFault s 1#3) ∧
    (s.version = 0 → exec .encodeAuto s = .next (afterFault s 6#3) ∧ exec .encodeN s = .next (afterFault s 6#3) ∧
      exec .encodeA s = .next (afterFault s 6#3) ∧ exec .encodeB s = .next (afterFault s 6#3)) ∧
    (∀ (width : BitVec 8) (v : Nat), s.params.W < width.toNat → exec (.bsBits width v) s = .next (afterFault s 6#3)) ∧
    ∀ p : List Byte, s.payload = some p →
      (meetsAlphabet .numeric p = false → exec .encN s = .next (afterFault s 2#3)) ∧
      (meetsAlphabet .alphanumeric p = false → exec .encA s = .next (afterFault s 3#3))

/-- 30_encoding.md rule R81 The response's f is FAULT after the command, and d is 0 with a fault except for RDSTAT. -/
def Obligations.ResponseCarriesFault : Prop :=
  ∀ (i : Instr) (s t : State), exec i s = .next t → ∃ r : Response, t.rsp = some r ∧ r.f = t.fault ∧
    (r.f ≠ 0 → i ≠ .rdstat → r.d = 0)

/-- 60_exceptions.md rule R235; notes/assumptions/15.md (what a correct host does with CCW.x, BS.BIT and BS.BITS is the model's choice) A
host that keeps to the rules for a correct host meets no fault with the instance parameters. -/
def Obligations.CorrectHostMeetsNoFault : Prop :=
  ∀ (i : Instr) (s : State), s.Inv → s.fault = 0 → s.params = { W := 64, NW := 2048, PMAX := 8192 } →
    correctHostSends s i = true → ∃ t : State, exec i s = .next t ∧ t.fault = 0

/-! ### Who writes what -/

/-- R59: "BS.DATA, BS.LEN, RDSTAT, CCW.x and ACB change no state when they succeed, and issuing one twice in a row gives the same
response." RDSTAT, BS.LEN, BS.DATA, CCW.x and ACB change no state when they succeed and repeat their response. -/
def Obligations.ReadsHaveNoSideEffect : Prop :=
  ∀ (i : Instr) (s t : State), isRead i = true → s.fault = 0 → exec i s = .next t → t.fault = 0 →
    t = { s with rsp := t.rsp } ∧ exec i t = .next t

/-- 10_state.md rule R20 (column written by); 46_host_access.md rule R209 Each register and memory is written only by the commands the
state table names. -/
def Obligations.RegistersHaveTheirWritersOnly : Prop :=
  ∀ (i : Instr) (s t : State), exec i s = .next t →
    t.params = s.params ∧ t.queue = s.queue ∧
    (t.version ≠ s.version → i = .init ∨ ∃ v, i = .setver v) ∧
    (t.ecl ≠ s.ecl → i = .init ∨ ∃ e, i = .setecl e) ∧
    (t.mode ≠ s.mode → i = .init ∨ i = .classify ∨ isEncode i = true) ∧
    (t.plen ≠ s.plen ∨ t.pbuf ≠ s.pbuf → i = .init ∨ i = .plClr ∨ ∃ c, i = .plPush c) ∧
    (t.stream ≠ s.stream → i = .init ∨ i = .bsNew ∨ (∃ b, i = .bsBit b) ∨ (∃ w v, i = .bsBits w v) ∨ isEnc i = true ∨ isEncode i = true) ∧
    (t.fault ≠ s.fault → i = .init ∨ s.fault = 0)

/-- 10_state.md rule R30 (what sets, clears and keeps SEGV) SEGV is set by a successful ENCODE only, cleared by what changes the segment's
inputs, kept by the rest. -/
def Obligations.SegvSetByEncodeOnly : Prop :=
  ∀ (i : Instr) (s t : State), exec i s = .next t →
    (s.fault = 0 → t.fault = 0 → isEncode i = true → t.segv = true) ∧
    (i = .init → t.segv = false) ∧
    (s.fault = 0 → t.fault ≠ 0 → t.segv = false) ∧
    (s.fault = 0 → t.fault = 0 → clearsSegv i = true → t.segv = false) ∧
    (t.fault = s.fault → isRead i = true ∨ (∃ e, i = .setecl e) → t.segv = s.segv) ∧
    (s.fault ≠ 0 → i ≠ .init → t.segv = s.segv)

/-! ### Decoding and the step -/

/-- 20_memory.md rule R62; 30_encoding.md rule R82; 60_exceptions.md rule R241; notes/assumptions/2.md, 4.md and 8.md (the input queue and
the idle step are the model's) A step runs the decoded command on the state with the command taken; with nothing issued the block is idle.
-/
def Obligations.StepRunsDecodedCommand : Prop :=
  (∀ (s : State) (c : Command) (rest : List Input) (i : Instr), s.queue = .command c :: rest → decode s.params c = .ok i →
    step s = exec i { s with queue := rest }) ∧
  (∀ (s : State) (nbits w : Nat) (i : Instr), decode s.params (tableCommand nbits w) = .ok i →
    step (s.withFetchWord nbits w) = exec i s) ∧
  ∀ s : State, s.queue = [] → step s = .next s

/-- 30_encoding.md rule R86; notes/assumptions/9.md (the operand above the header is the model's numbering) Words written out from the
table decode to the commands they stand for. -/
def Obligations.DecodeReadsSpecWords : Prop :=
  decodeTableWord 16 0b000000000000 = some .init ∧ decodeTableWord 16 0b001100000010 = some (.setecl 2#2) ∧
  decodeTableWord 16 0b010101001000 = some (.plPush 0x48#8) ∧ decodeTableWord 16 0b011100000001 = some (.bsBit 1#1) ∧
  decodeTableWord 16 0b100000111100 = some (.bsBits 60#8 0) ∧ decodeTableWord 16 0b101100000000 = some .classify ∧
  decodeTableWord 16 0b110000001000 = some (.ccwK 0) ∧ decodeTableWord 16 0b110101011010 = some (.acb 0x5A#8) ∧
  decodeTableWord 16 0b111000000010 = some .encA ∧ decodeTableWord 16 0b111100000100 = some .encodeB ∧
  decodeTableWord 16 0b111100000011 = none ∧ decodeTableWord 16 0b110000000000 = none

/-- R86: "A header is legal exactly when `CH & mask = match` for one row; the rows do not overlap." The decoder accepts exactly the
headers that match one row of the table, and no header matches two. -/
def Obligations.LegalHeadersAreTheTableRows : Prop :=
  (∀ (P : Params) (c : Command), (∃ i, decode P c = .ok i) ↔ ∃ r ∈ opcodeRows, r.matches c.ch = true) ∧
  (∀ (P : Params) (c : Command) (i : Instr), decode P c = .ok i →
    ∃ r ∈ opcodeRows, r.matches c.ch = true ∧ r.mnemonic = mnemonicOf i) ∧
  ∀ (ch : BitVec 12) (r r' : OpcodeRow), r ∈ opcodeRows → r' ∈ opcodeRows → r.matches ch = true → r'.matches ch = true → r = r'

/-- R87: "= 795 of the 4096 possible; the other 3301 are illegal." 795 of the 4096 headers are legal. -/
def Obligations.LegalHeaderCount : Prop :=
  ((List.range 4096).countP fun h => (decode Config.given { ch := BitVec.ofNat 12 h, a := 0 }).isOk) = 795

/-- 30_encoding.md rules R83, R84, R86 Decoding an encoded well-formed command gives it back. -/
def Obligations.DecodeEncodeRoundTrip : Prop :=
  ∀ (P : Params) (i : Instr), i.wf P = true → decode P (encode i) = .ok i

/-- 30_encoding.md rules R80, R84 A decoded command is well formed, has the header it came from, and depends on A only where its format
has one. -/
def Obligations.EncodeDecodeRoundTrip : Prop :=
  ∀ (P : Params) (c : Command) (i : Instr), decode P c = .ok i →
    i.wf P = true ∧ headerOf i = c.ch ∧ (usesOperand i = true → operandOf i = c.a % 2 ^ P.W) ∧
    (usesOperand i = false → ∀ a : Nat, decode P { ch := c.ch, a := a } = .ok i)

/-! ### The invariant -/

/-- 10_state.md rule R39 The reset state is well formed. -/
def Obligations.ResetStateIsWellFormed : Prop :=
  State.reset.Inv

/-- R39: "The reset state is well formed, and every command takes a well-formed state to a well-formed state." The reset state is well
formed and every step keeps well-formedness. -/
def Obligations.StepKeepsWellFormed : Prop :=
  State.reset.Inv ∧ ∀ s t : State, s.Inv → step s = .next t → t.Inv

/-- 00_scope.md rule R9; 45_orchestrator.md rule R197; notes/assumptions/4.md and 6.md (the idle step and the stops are the model's) From
every well-formed state the step completes: the model never stops. -/
def Obligations.StepAlwaysCompletes : Prop :=
  ∀ s : State, s.Inv → Running (step s)
end

