-- ==== Sys2Proof/Laws/Memory.lean ====
section
/-! SUPPORT. What reading and writing a memory do, that writing keeps the canonical form, and what `lookupAll` answers. -/

namespace Sys2Proof.Machine

variable {α β : Type}

@[simp] theorem Memory.read_nil (a : Nat) : Memory.read ([] : Memory α) a = none := rfl

theorem Memory.read_cons (k : Nat) (v : α) (m : Memory α) (a : Nat) :
    Memory.read ((k, v) :: m) a = if k = a then some v else Memory.read m a := rfl

/-- A read after a write to the same address gives the value written. -/
@[simp] theorem Memory.read_write_same (m : Memory α) (a : Nat) (v : α) : (m.write a v).read a = some v := by
  induction m with
  | nil => simp [write, read_cons]
  | cons e m ih =>
    obtain ⟨k, x⟩ := e
    simp only [write]
    split
    · simp [read_cons]
    · split
      · simp [read_cons]
      · rename_i h1 h2
        rw [read_cons, if_neg (fun h => h2 h.symm), ih]

/-- A write leaves every other address alone. -/
theorem Memory.read_write_other (m : Memory α) {a b : Nat} (v : α) (h : b ≠ a) : (m.write a v).read b = m.read b := by
  induction m with
  | nil => simp [write, read_cons, Ne.symm h]
  | cons e m ih =>
    obtain ⟨k, x⟩ := e
    simp only [write]
    split
    · rw [read_cons, if_neg (Ne.symm h)]
    · split
      · rename_i h1 h2
        subst h2
        rw [read_cons, read_cons, if_neg (Ne.symm h), if_neg (Ne.symm h)]
      · rw [read_cons, read_cons, ih]

theorem Memory.read_write (m : Memory α) (a b : Nat) (v : α) :
    (m.write a v).read b = if b = a then some v else m.read b := by
  by_cases h : b = a
  · subst h; simp
  · rw [if_neg h, read_write_other m v h]

theorem Memory.mem_keys_write (m : Memory α) (a k : Nat) (v : α) :
    k ∈ (m.write a v).map Prod.fst ↔ k = a ∨ k ∈ m.map Prod.fst := by
  induction m with
  | nil => simp [write]
  | cons e m ih =>
    obtain ⟨j, x⟩ := e
    simp only [write]
    split
    · simp
    · split
      · rename_i h1 h2
        subst h2; simp
      · simp only [List.map_cons, List.mem_cons, ih]; tauto

/-- A write keeps the canonical form. -/
theorem Memory.write_wf {m : Memory α} (h : m.wf) (a : Nat) (v : α) : (m.write a v).wf := by
  induction m with
  | nil => simp [write, wf]
  | cons e m ih =>
    obtain ⟨k, x⟩ := e
    simp only [wf, List.map_cons, List.pairwise_cons] at h ih ⊢
    simp only [write]
    split
    · rename_i hlt
      simp only [List.map_cons, List.pairwise_cons, List.mem_cons]
      refine ⟨?_, h⟩
      rintro b (rfl | hb)
      · exact hlt
      · exact hlt.trans (h.1 b hb)
    · split
      · rename_i h1 h2
        subst h2
        exact List.pairwise_cons.mpr h
      · rename_i h1 h2
        simp only [List.map_cons, List.pairwise_cons]
        refine ⟨fun b hb => ?_, ih h.2⟩
        rcases (mem_keys_write m a b v).mp hb with rfl | hb
        · omega
        · exact h.1 b hb

theorem Memory.read_isSome_iff (m : Memory α) (a : Nat) : (m.read a).isSome ↔ a ∈ m.map Prod.fst := by
  induction m with
  | nil => simp
  | cons e m ih =>
    obtain ⟨k, x⟩ := e
    rw [read_cons]
    by_cases h : k = a
    · simp [h]
    · rw [if_neg h, ih, List.map_cons, List.mem_cons]
      exact ⟨Or.inr, fun h' => h'.resolve_left (Ne.symm h)⟩

theorem Memory.mem_of_read {m : Memory α} {a : Nat} {v : α} (h : m.read a = some v) : (a, v) ∈ m := by
  induction m with
  | nil => simp at h
  | cons e m ih =>
    obtain ⟨k, x⟩ := e
    rw [read_cons] at h
    split at h
    · rename_i hk; simp_all
    · exact List.mem_cons_of_mem _ (ih h)

theorem Memory.mem_write {m : Memory α} {a : Nat} {v : α} {e : Nat × α} (h : e ∈ m.write a v) : e = (a, v) ∨ e ∈ m := by
  induction m with
  | nil => simpa [write] using h
  | cons e' m ih =>
    obtain ⟨k, x⟩ := e'
    simp only [write] at h
    split at h
    · simpa using h
    · split at h
      · rcases List.mem_cons.mp h with h | h
        · exact .inl h
        · exact .inr (List.mem_cons_of_mem _ h)
      · rcases List.mem_cons.mp h with h | h
        · exact .inr (by simp [h])
        · exact (ih h).imp_right (List.mem_cons_of_mem _)

/-- Writing an address that is listed changes no address. -/
theorem Memory.keys_write_of_mem {m : Memory α} (h : m.wf) {a : Nat} (ha : a ∈ m.map Prod.fst) (v : α) :
    (m.write a v).map Prod.fst = m.map Prod.fst := by
  induction m with
  | nil => simp at ha
  | cons e m ih =>
    obtain ⟨k, x⟩ := e
    simp only [wf, List.map_cons, List.pairwise_cons] at h ih ⊢
    rw [List.map_cons, List.mem_cons] at ha
    simp only [write]
    split
    · rename_i hlt
      rcases ha with rfl | ha
      · omega
      · have := h.1 a ha; omega
    · split
      · rename_i h1 h2
        subst h2; simp
      · rename_i h1 h2
        rw [List.map_cons, ih h.2 (ha.resolve_left h2)]

/-- Writing above every listed address appends. -/
theorem Memory.write_above {m : Memory α} {a : Nat} (h : ∀ k ∈ m.map Prod.fst, k < a) (v : α) : m.write a v = m ++ [(a, v)] := by
  induction m with
  | nil => rfl
  | cons e m ih =>
    obtain ⟨k, x⟩ := e
    have hk : k < a := h k (by simp)
    simp only [write, if_neg (show ¬ a < k by omega), if_neg (show ¬ a = k by omega)]
    rw [ih fun j hj => h j (List.mem_cons_of_mem _ hj), List.cons_append]

theorem Memory.wf_of_keys {m : Memory α} {n : Nat} (h : m.map Prod.fst = List.range n) : m.wf := by
  rw [wf, h]; exact List.pairwise_lt_range

theorem Memory.keys_write_range {m : Memory α} {n : Nat} (h : m.map Prod.fst = List.range n) (v : α) :
    (m.write n v).map Prod.fst = List.range (n + 1) := by
  rw [write_above (fun k hk => by rw [h] at hk; exact List.mem_range.mp hk)]
  simp [h, List.range_succ]

theorem Memory.keys_write_below {m : Memory α} {n a : Nat} (h : m.map Prod.fst = List.range n) (ha : a < n) (v : α) :
    (m.write a v).map Prod.fst = List.range n := by
  rw [keys_write_of_mem (wf_of_keys h) (by rw [h]; exact List.mem_range.mpr ha), h]

/-- On a memory that lists 0..n-1, exactly those addresses read as a value. -/
theorem Memory.read_isSome_of_keys {m : Memory α} {n : Nat} (h : m.map Prod.fst = List.range n) (a : Nat) :
    (m.read a).isSome ↔ a < n := by
  rw [read_isSome_iff, h, List.mem_range]

theorem Memory.read_none_of_keys {m : Memory α} {n a : Nat} (h : m.map Prod.fst = List.range n) (ha : n ≤ a) : m.read a = none := by
  rw [← Option.not_isSome_iff_eq_none, read_isSome_of_keys h]; omega

/-- Two memories in canonical form that list the same addresses and read alike are equal. -/
theorem Memory.ext_of_read {m m' : Memory α} (hm : m.wf) (hk : m.map Prod.fst = m'.map Prod.fst)
    (hr : ∀ a, m.read a = m'.read a) : m = m' := by
  induction m generalizing m' with
  | nil => simpa using hk
  | cons e m ih =>
    obtain ⟨k, x⟩ := e
    cases m' with
    | nil => simp at hk
    | cons e' m' =>
      obtain ⟨k', x'⟩ := e'
      simp only [List.map_cons, List.cons.injEq] at hk
      obtain ⟨rfl, hk⟩ := hk
      simp only [wf, List.map_cons, List.pairwise_cons] at hm ih
      have hx : x = x' := by simpa [read_cons] using hr k
      subst hx
      have hnot : k ∉ m.map Prod.fst := fun h => absurd (hm.1 k h) (lt_irrefl k)
      rw [ih hm.2 hk fun a => ?_]
      by_cases ha : k = a
      · subst ha
        rw [Option.not_isSome_iff_eq_none.mp (mt (read_isSome_iff m k).mp hnot),
          Option.not_isSome_iff_eq_none.mp (mt (read_isSome_iff m' k).mp (hk ▸ hnot))]
      · simpa [read_cons, ha] using hr a

@[simp] theorem lookupAll_nil (f : α → Option β) : lookupAll f [] = some [] := rfl

theorem lookupAll_cons_some {f : α → Option β} {x : α} {xs : List α} {y : β} {ys : List β} (h : f x = some y)
    (hs : lookupAll f xs = some ys) : lookupAll f (x :: xs) = some (y :: ys) := by
  simp [lookupAll, h, hs]

theorem lookupAll_cons (f : α → Option β) (x : α) (xs : List α) :
    lookupAll f (x :: xs) = (f x).bind fun y => (lookupAll f xs).map (y :: ·) := by
  cases h : f x <;> cases h' : lookupAll f xs <;> simp [lookupAll, h, h']

theorem lookupAll_append (f : α → Option β) (xs ys : List α) :
    lookupAll f (xs ++ ys) = (lookupAll f xs).bind fun a => (lookupAll f ys).map (a ++ ·) := by
  induction xs with
  | nil => cases h : lookupAll f ys <;> simp [h]
  | cons x xs ih =>
    rw [List.cons_append, lookupAll_cons, lookupAll_cons, ih]
    cases f x <;> cases lookupAll f xs <;> cases lookupAll f ys <;> simp

theorem lookupAll_congr {f g : α → Option β} {xs : List α} (h : ∀ x ∈ xs, f x = g x) : lookupAll f xs = lookupAll g xs := by
  induction xs with
  | nil => rfl
  | cons x xs ih =>
    rw [lookupAll_cons, lookupAll_cons, h x (by simp), ih fun y hy => h y (List.mem_cons_of_mem _ hy)]

/-- `lookupAll` answers exactly when every element has a result. -/
theorem lookupAll_isSome_iff (f : α → Option β) (xs : List α) : (lookupAll f xs).isSome ↔ ∀ x ∈ xs, (f x).isSome := by
  induction xs with
  | nil => simp
  | cons x xs ih =>
    rw [lookupAll_cons, List.forall_mem_cons, ← ih]
    cases f x <;> cases lookupAll f xs <;> simp

theorem lookupAll_length {f : α → Option β} {xs : List α} {ys : List β} (h : lookupAll f xs = some ys) : ys.length = xs.length := by
  induction xs generalizing ys with
  | nil => simp at h; simp [← h]
  | cons x xs ih =>
    rw [lookupAll_cons] at h
    cases hx : f x <;> cases hxs : lookupAll f xs <;> simp [hx, hxs] at h
    simp [← h, ih hxs]

/-- The k-th result is the result of the k-th element. -/
theorem lookupAll_getElem? {f : α → Option β} {xs : List α} {ys : List β} (h : lookupAll f xs = some ys) (k : Nat) :
    ys[k]? = xs[k]?.bind f := by
  induction xs generalizing ys k with
  | nil => simp at h; subst h; simp
  | cons x xs ih =>
    rw [lookupAll_cons] at h
    cases hx : f x <;> cases hxs : lookupAll f xs <;> simp [hx, hxs] at h
    subst h
    cases k with
    | zero => simp [hx]
    | succ k => simpa using ih hxs k

theorem lookupAll_mem {f : α → Option β} {xs : List α} {ys : List β} (h : lookupAll f xs = some ys) {y : β} (hy : y ∈ ys) :
    ∃ x ∈ xs, f x = some y := by
  obtain ⟨k, hk⟩ := List.mem_iff_getElem?.mp hy
  rw [lookupAll_getElem? h k] at hk
  cases hx : xs[k]? with
  | none => simp [hx] at hk
  | some x => exact ⟨x, List.mem_iff_getElem?.mpr ⟨k, hx⟩, by simpa [hx] using hk⟩

theorem lookupAll_range_eq_of_getElem? {f : Nat → Option β} {ys : List β} (h : ∀ k < ys.length, f k = ys[k]?) :
    lookupAll f (List.range ys.length) = some ys := by
  induction ys using List.reverseRecOn with
  | nil => rfl
  | append_singleton ys y ih =>
    rw [List.length_append, List.length_singleton, List.range_succ, lookupAll_append, lookupAll_cons]
    rw [ih fun k hk => by rw [h k (by simp; omega), List.getElem?_append_left hk]]
    rw [h ys.length (by simp)]
    simp

end Sys2Proof.Machine
end

