-- ==== Sys2Proof/Laws/Bits.lean ====
section
/-! SUPPORT. The bits of a natural number (R11), the string `bin_w(v)` (R12) and `flatten` (R181). -/

namespace Sys2Proof.Machine

theorem bitOf_eq_testBit (v i : Nat) : bitOf v i = v.testBit i := by
  rw [bitOf, Nat.testBit_eq_decide_div_mod_eq]

/-- The low m bits of w are 0 exactly when w is a multiple of 2^m. -/
theorem low_bits_zero_iff (w m : Nat) : (∀ q < m, bitOf w q = false) ↔ w % 2 ^ m = 0 := by
  constructor
  · intro h
    refine Nat.eq_of_testBit_eq fun i => ?_
    rw [Nat.testBit_mod_two_pow, Nat.zero_testBit]
    by_cases hi : i < m
    · simp [hi, ← bitOf_eq_testBit, h i hi]
    · simp [hi]
  · intro h q hq
    have := congrArg (fun x => x.testBit q) h
    rw [bitOf_eq_testBit]
    simpa [Nat.testBit_mod_two_pow, hq] using this

/-- Adding 2^k to a number whose bits k and below are 0 sets bit k and no other ("bit k of BW[j] was 0, so this sets it", R114). -/
theorem bitOf_add_two_pow {w k : Nat} (h : w % 2 ^ (k + 1) = 0) (q : Nat) :
    bitOf (w + 2 ^ k) q = if q = k then true else bitOf w q := by
  obtain ⟨a, rfl⟩ := Nat.dvd_of_mod_eq_zero h
  have hk : (2 : Nat) ^ k < 2 ^ (k + 1) := Nat.pow_lt_pow_right (by omega) (by omega)
  simp only [bitOf_eq_testBit]
  rw [Nat.two_pow_add_eq_or_of_lt hk, Nat.testBit_or, Nat.testBit_two_pow]
  by_cases hq : q = k
  · simp [hq]
  · simp [hq, Ne.symm hq]

/-- The sum stays a W-bit word. -/
theorem add_two_pow_lt {w k W : Nat} (h : w % 2 ^ (k + 1) = 0) (hw : w < 2 ^ W) (hk : k < W) : w + 2 ^ k < 2 ^ W := by
  obtain ⟨a, rfl⟩ := Nat.dvd_of_mod_eq_zero h
  obtain ⟨c, rfl⟩ : ∃ c, W = k + 1 + c := ⟨W - (k + 1), by omega⟩
  rw [pow_add 2 (k + 1) c] at hw ⊢
  have ha : a < 2 ^ c := lt_of_mul_lt_mul_left hw (Nat.zero_le _)
  have hk : (2 : Nat) ^ k < 2 ^ (k + 1) := Nat.pow_lt_pow_right (by omega) (by omega)
  calc 2 ^ (k + 1) * a + 2 ^ k < 2 ^ (k + 1) * a + 2 ^ (k + 1) := by omega
    _ = 2 ^ (k + 1) * (a + 1) := by ring
    _ ≤ 2 ^ (k + 1) * 2 ^ c := Nat.mul_le_mul_left _ ha

@[simp] theorem bin_zero (v : Nat) : bin 0 v = [] := rfl

theorem bin_succ (w v : Nat) : bin (w + 1) v = bitOf v w :: bin w v := rfl

@[simp] theorem bin_length (w v : Nat) : (bin w v).length = w := by
  induction w with
  | zero => rfl
  | succ w ih => simp [bin_succ, ih]

/-- Only the low w bits of a value are spelled (R116). -/
theorem bin_congr {w v v' : Nat} (h : ∀ q < w, bitOf v q = bitOf v' q) : bin w v = bin w v' := by
  induction w with
  | zero => rfl
  | succ w ih => rw [bin_succ, bin_succ, h w (by omega), ih fun q hq => h q (by omega)]

/-- `bin_w(v)` spells `v mod 2^w` (R12). -/
theorem bin_mod (w v : Nat) : bin w (v % 2 ^ w) = bin w v :=
  bin_congr fun q hq => by simp [bitOf_eq_testBit, Nat.testBit_mod_two_pow, hq]

/-- The k-th bit of `bin_w(v)` is bit w-1-k of v: most significant bit first (R52). -/
theorem bin_getElem? {w v k : Nat} (h : k < w) : (bin w v)[k]? = some (bitOf v (w - 1 - k)) := by
  induction w generalizing k with
  | zero => omega
  | succ w ih =>
    rw [bin_succ]
    cases k with
    | zero => simp
    | succ k =>
      rw [List.getElem?_cons_succ, ih (by omega)]
      congr 2
      omega

/-- Different values that fit the width are spelled differently. -/
theorem bin_injective {w v v' : Nat} (hv : v < 2 ^ w) (hv' : v' < 2 ^ w) (h : bin w v = bin w v') : v = v' := by
  refine Nat.eq_of_testBit_eq fun i => ?_
  by_cases hi : i < w
  · have := congrArg (fun l => l[w - 1 - i]?) h
    simp only [bin_getElem? (show w - 1 - i < w by omega)] at this
    simpa [bitOf_eq_testBit, show w - 1 - (w - 1 - i) = i by omega] using this
  · rw [Nat.testBit_lt_two_pow (hv.trans_le (Nat.pow_le_pow_right (by omega) (by omega))),
      Nat.testBit_lt_two_pow (hv'.trans_le (Nat.pow_le_pow_right (by omega) (by omega)))]

@[simp] theorem flatten_nil : flatten [] = [] := rfl

theorem flatten_cons (p : Packet) (ps : List Packet) : flatten (p :: ps) = bin p.width p.value ++ flatten ps := rfl

theorem flatten_append (ps qs : List Packet) : flatten (ps ++ qs) = flatten ps ++ flatten qs := by
  induction ps with
  | nil => rfl
  | cons p ps ih => rw [List.cons_append, flatten_cons, flatten_cons, ih, List.append_assoc]

/-- The length of a flattened packet list is the sum of its widths. -/
theorem flatten_length (ps : List Packet) : (flatten ps).length = (ps.map Packet.width).sum := by
  induction ps with
  | nil => rfl
  | cons p ps ih => simp [flatten_cons, ih]

end Sys2Proof.Machine
end

