-- ==== Sys2Proof/Laws/Decode.lean ====
section
/-! SUPPORT. The fields of a header that was put together from its fields, and the round trip of a mode code. -/

namespace Sys2Proof

@[simp] theorem headerOp_mkHeader (op : BitVec 4) (b : BitVec 8) : headerOp (mkHeader op b) = op := by
  refine BitVec.eq_of_getLsbD_eq fun i hi => ?_
  rw [headerOp, BitVec.getLsbD_extractLsb']
  have h : (mkHeader op b).getLsbD (8 + i) = (op ++ b).getLsbD (8 + i) := rfl
  rw [h, BitVec.getLsbD_append]
  simp [hi]

@[simp] theorem headerImm_mkHeader (op : BitVec 4) (b : BitVec 8) : headerImm (mkHeader op b) = b := by
  refine BitVec.eq_of_getLsbD_eq fun i hi => ?_
  rw [headerImm, BitVec.getLsbD_extractLsb']
  have h : (mkHeader op b).getLsbD (0 + i) = (op ++ b).getLsbD (0 + i) := rfl
  rw [h, BitVec.getLsbD_append]
  simp [hi]

/-- A header is its two fields (R80). -/
theorem mkHeader_fields (ch : BitVec 12) : mkHeader (headerOp ch) (headerImm ch) = ch := by
  refine BitVec.eq_of_getLsbD_eq fun i hi => ?_
  have h : (mkHeader (headerOp ch) (headerImm ch)).getLsbD i = (headerOp ch ++ headerImm ch).getLsbD i := rfl
  rw [h, BitVec.getLsbD_append]
  by_cases h8 : i < 8
  · simp [headerImm, h8]
  · simp [headerOp, h8, show i - 8 < 4 by omega, show 8 + (i - 8) = i by omega]

/-- Decoding a header put together from its fields. -/
@[simp] theorem decode_mkHeader (P : Params) (op : BitVec 4) (b : BitVec 8) (a : Nat) :
    decode P { ch := mkHeader op b, a := a } = decodeFields op b (a % 2 ^ P.W) := by
  simp [decode]

/-- Decoding a header whose fields are known. -/
theorem decode_of_fields {ch : BitVec 12} {op : BitVec 4} {b : BitVec 8} (h : ch = mkHeader op b) (P : Params) (a : Nat) :
    decode P { ch := ch, a := a } = decodeFields op b (a % 2 ^ P.W) := by
  rw [h, decode_mkHeader]

/-- Reading a mode code gives the mode back (R19, R93). -/
@[simp] theorem readModeCode_modeCode (m : EncodingMode) : readModeCode (modeCode m) = some m := by
  cases m <;> rfl

/-- A mode is read from its own code only. -/
theorem modeCode_of_readModeCode {b : BitVec 4} {m : EncodingMode} (h : readModeCode b = some m) : modeCode m = b := by
  unfold readModeCode at h
  split at h
  · cases h; simp_all [modeCode]
  · split at h
    · cases h; simp_all [modeCode]
    · split at h
      · cases h; simp_all [modeCode]
      · split at h
        · cases h; simp_all [modeCode]
        · cases h

end Sys2Proof
end

