-- ==== Sys2Proof/Laws/State.lean ====
section
/-! SUPPORT. One lemma per field per named update of State, so that no later proof unfolds a record update. -/

namespace Sys2Proof.Machine

@[simp] theorem State.answered_params (s : State) (f : BitVec 3) (d : Nat) : (s.answered f d).params = s.params := rfl
@[simp] theorem State.answered_stream (s : State) (f : BitVec 3) (d : Nat) : (s.answered f d).stream = s.stream := rfl
@[simp] theorem State.answered_plen (s : State) (f : BitVec 3) (d : Nat) : (s.answered f d).plen = s.plen := rfl
@[simp] theorem State.answered_pbuf (s : State) (f : BitVec 3) (d : Nat) : (s.answered f d).pbuf = s.pbuf := rfl
@[simp] theorem State.answered_version (s : State) (f : BitVec 3) (d : Nat) : (s.answered f d).version = s.version := rfl
@[simp] theorem State.answered_ecl (s : State) (f : BitVec 3) (d : Nat) : (s.answered f d).ecl = s.ecl := rfl
@[simp] theorem State.answered_mode (s : State) (f : BitVec 3) (d : Nat) : (s.answered f d).mode = s.mode := rfl
@[simp] theorem State.answered_fault (s : State) (f : BitVec 3) (d : Nat) : (s.answered f d).fault = s.fault := rfl
@[simp] theorem State.answered_segv (s : State) (f : BitVec 3) (d : Nat) : (s.answered f d).segv = s.segv := rfl
@[simp] theorem State.answered_rsp (s : State) (f : BitVec 3) (d : Nat) : (s.answered f d).rsp = some { f := f, d := d } := rfl
@[simp] theorem State.answered_queue (s : State) (f : BitVec 3) (d : Nat) : (s.answered f d).queue = s.queue := rfl

@[simp] theorem State.raised_params (s : State) (code : FaultCode) : (s.raised code).params = s.params := rfl
@[simp] theorem State.raised_stream (s : State) (code : FaultCode) : (s.raised code).stream = s.stream := rfl
@[simp] theorem State.raised_plen (s : State) (code : FaultCode) : (s.raised code).plen = s.plen := rfl
@[simp] theorem State.raised_pbuf (s : State) (code : FaultCode) : (s.raised code).pbuf = s.pbuf := rfl
@[simp] theorem State.raised_version (s : State) (code : FaultCode) : (s.raised code).version = s.version := rfl
@[simp] theorem State.raised_ecl (s : State) (code : FaultCode) : (s.raised code).ecl = s.ecl := rfl
@[simp] theorem State.raised_mode (s : State) (code : FaultCode) : (s.raised code).mode = s.mode := rfl
@[simp] theorem State.raised_fault (s : State) (code : FaultCode) : (s.raised code).fault = faultBits code := rfl
@[simp] theorem State.raised_segv (s : State) (code : FaultCode) : (s.raised code).segv = false := rfl
@[simp] theorem State.raised_rsp (s : State) (code : FaultCode) : (s.raised code).rsp = some { f := faultBits code, d := 0 } := rfl
@[simp] theorem State.raised_queue (s : State) (code : FaultCode) : (s.raised code).queue = s.queue := rfl

@[simp] theorem State.refusedInFault_params (s : State) : s.refusedInFault.params = s.params := rfl
@[simp] theorem State.refusedInFault_stream (s : State) : s.refusedInFault.stream = s.stream := rfl
@[simp] theorem State.refusedInFault_plen (s : State) : s.refusedInFault.plen = s.plen := rfl
@[simp] theorem State.refusedInFault_pbuf (s : State) : s.refusedInFault.pbuf = s.pbuf := rfl
@[simp] theorem State.refusedInFault_version (s : State) : s.refusedInFault.version = s.version := rfl
@[simp] theorem State.refusedInFault_ecl (s : State) : s.refusedInFault.ecl = s.ecl := rfl
@[simp] theorem State.refusedInFault_mode (s : State) : s.refusedInFault.mode = s.mode := rfl
@[simp] theorem State.refusedInFault_fault (s : State) : s.refusedInFault.fault = s.fault := rfl
@[simp] theorem State.refusedInFault_segv (s : State) : s.refusedInFault.segv = s.segv := rfl
@[simp] theorem State.refusedInFault_rsp (s : State) : s.refusedInFault.rsp = some { f := s.fault, d := 0 } := rfl
@[simp] theorem State.refusedInFault_queue (s : State) : s.refusedInFault.queue = s.queue := rfl

@[simp] theorem State.restored_params (s : State) : s.restored.params = s.params := rfl
@[simp] theorem State.restored_stream (s : State) : s.restored.stream = emptyStream := rfl
@[simp] theorem State.restored_plen (s : State) : s.restored.plen = 0 := rfl
@[simp] theorem State.restored_pbuf (s : State) : s.restored.pbuf = [] := rfl
@[simp] theorem State.restored_version (s : State) : s.restored.version = 0 := rfl
@[simp] theorem State.restored_ecl (s : State) : s.restored.ecl = 0 := rfl
@[simp] theorem State.restored_mode (s : State) : s.restored.mode = 0 := rfl
@[simp] theorem State.restored_fault (s : State) : s.restored.fault = 0 := rfl
@[simp] theorem State.restored_segv (s : State) : s.restored.segv = false := rfl
@[simp] theorem State.restored_rsp (s : State) : s.restored.rsp = s.rsp := rfl
@[simp] theorem State.restored_queue (s : State) : s.restored.queue = s.queue := rfl

@[simp] theorem State.hardReset_params (s : State) : s.hardReset.params = s.params := rfl
@[simp] theorem State.hardReset_stream (s : State) : s.hardReset.stream = emptyStream := rfl
@[simp] theorem State.hardReset_plen (s : State) : s.hardReset.plen = 0 := rfl
@[simp] theorem State.hardReset_pbuf (s : State) : s.hardReset.pbuf = [] := rfl
@[simp] theorem State.hardReset_version (s : State) : s.hardReset.version = 0 := rfl
@[simp] theorem State.hardReset_ecl (s : State) : s.hardReset.ecl = 0 := rfl
@[simp] theorem State.hardReset_mode (s : State) : s.hardReset.mode = 0 := rfl
@[simp] theorem State.hardReset_fault (s : State) : s.hardReset.fault = 0 := rfl
@[simp] theorem State.hardReset_segv (s : State) : s.hardReset.segv = false := rfl
@[simp] theorem State.hardReset_rsp (s : State) : s.hardReset.rsp = none := rfl
@[simp] theorem State.hardReset_queue (s : State) : s.hardReset.queue = s.queue := rfl

@[simp] theorem State.segvCleared_params (s : State) : s.segvCleared.params = s.params := rfl
@[simp] theorem State.segvCleared_stream (s : State) : s.segvCleared.stream = s.stream := rfl
@[simp] theorem State.segvCleared_plen (s : State) : s.segvCleared.plen = s.plen := rfl
@[simp] theorem State.segvCleared_pbuf (s : State) : s.segvCleared.pbuf = s.pbuf := rfl
@[simp] theorem State.segvCleared_version (s : State) : s.segvCleared.version = s.version := rfl
@[simp] theorem State.segvCleared_ecl (s : State) : s.segvCleared.ecl = s.ecl := rfl
@[simp] theorem State.segvCleared_mode (s : State) : s.segvCleared.mode = s.mode := rfl
@[simp] theorem State.segvCleared_fault (s : State) : s.segvCleared.fault = s.fault := rfl
@[simp] theorem State.segvCleared_segv (s : State) : s.segvCleared.segv = false := rfl
@[simp] theorem State.segvCleared_rsp (s : State) : s.segvCleared.rsp = s.rsp := rfl
@[simp] theorem State.segvCleared_queue (s : State) : s.segvCleared.queue = s.queue := rfl

@[simp] theorem State.segvSet_params (s : State) : s.segvSet.params = s.params := rfl
@[simp] theorem State.segvSet_stream (s : State) : s.segvSet.stream = s.stream := rfl
@[simp] theorem State.segvSet_plen (s : State) : s.segvSet.plen = s.plen := rfl
@[simp] theorem State.segvSet_pbuf (s : State) : s.segvSet.pbuf = s.pbuf := rfl
@[simp] theorem State.segvSet_version (s : State) : s.segvSet.version = s.version := rfl
@[simp] theorem State.segvSet_ecl (s : State) : s.segvSet.ecl = s.ecl := rfl
@[simp] theorem State.segvSet_mode (s : State) : s.segvSet.mode = s.mode := rfl
@[simp] theorem State.segvSet_fault (s : State) : s.segvSet.fault = s.fault := rfl
@[simp] theorem State.segvSet_segv (s : State) : s.segvSet.segv = true := rfl
@[simp] theorem State.segvSet_rsp (s : State) : s.segvSet.rsp = s.rsp := rfl
@[simp] theorem State.segvSet_queue (s : State) : s.segvSet.queue = s.queue := rfl

@[simp] theorem emptyStream_blen : emptyStream.blen = 0 := rfl
@[simp] theorem emptyStream_bw : emptyStream.bw = [] := rfl

@[simp] theorem State.reset_fault : State.reset.fault = 0 := rfl
@[simp] theorem State.reset_stream : State.reset.stream = emptyStream := rfl
@[simp] theorem State.reset_plen : State.reset.plen = 0 := rfl
@[simp] theorem State.reset_pbuf : State.reset.pbuf = [] := rfl
@[simp] theorem State.reset_version : State.reset.version = 0 := rfl
@[simp] theorem State.reset_mode : State.reset.mode = 0 := rfl
@[simp] theorem State.reset_segv : State.reset.segv = false := rfl
@[simp] theorem State.reset_params : State.reset.params = Config.given := rfl

end Sys2Proof.Machine
end

