-- ==== Sys2Proof/Laws/Stream.lean ====
section
/-! SUPPORT. What appending does to a well-formed stream: one bit (R114), a value (R115), packets (R169); and two well-formed streams
with the same bits are the same stream (R39). -/

namespace Sys2Proof.Machine

theorem ceilDiv_eq {n W : Nat} (hW : 0 < W) : ceilDiv n W = if n % W = 0 then n / W else n / W + 1 := by
  have h := Nat.div_add_mod n W
  have hlt := Nat.mod_lt n hW
  unfold ceilDiv
  split
  · rename_i h0
    rw [h0] at h
    conv_lhs => rw [← h]
    rw [show W * (n / W) + 0 + W - 1 = (W - 1) + W * (n / W) by omega, Nat.add_mul_div_left _ _ hW,
      Nat.div_eq_of_lt (by omega)]
    omega
  · conv_lhs => rw [← h]
    rw [show W * (n / W) + n % W + W - 1 = (n % W - 1) + W * (n / W + 1) by rw [Nat.mul_add]; omega,
      Nat.add_mul_div_left _ _ hW, Nat.div_eq_of_lt (by omega)]
    omega

theorem le_ceilDiv_mul {n W : Nat} (hW : 0 < W) : n ≤ ceilDiv n W * W := by
  have h := Nat.div_add_mod n W
  have hlt := Nat.mod_lt n hW
  rw [ceilDiv_eq hW]
  split
  · rw [Nat.mul_comm]; omega
  · rw [Nat.add_mul, Nat.mul_comm]; omega

/-- The words below ceil(n / W) are those that hold a bit below n. -/
theorem lt_ceilDiv_iff {n W a : Nat} (hW : 0 < W) : a < ceilDiv n W ↔ a * W < n := by
  rw [ceilDiv, Nat.lt_iff_add_one_le, Nat.le_div_iff_mul_le hW, Nat.add_mul]
  omega

theorem ceilDiv_succ {n W : Nat} (hW : 0 < W) : ceilDiv (n + 1) W = n / W + 1 := by
  rw [ceilDiv, show n + 1 + W - 1 = n + W by omega, Nat.add_div_right _ hW]

theorem div_lt_ceilDiv {n W i : Nat} (hW : 0 < W) (hi : i < n) : i / W < ceilDiv n W := by
  rw [lt_ceilDiv_iff hW]
  exact lt_of_le_of_lt (Nat.div_mul_le_self i W) hi

@[simp] theorem ceilDiv_zero {W : Nat} (hW : 0 < W) : ceilDiv 0 W = 0 := by
  rw [ceilDiv_eq hW]; simp

/-- The empty stream is well formed (R111). -/
theorem emptyStream_wf {W : Nat} (hW : 0 < W) : StreamWf W emptyStream := by
  refine ⟨?_, ?_, ?_⟩ <;> simp [emptyStream, ceilDiv_zero hW]

@[simp] theorem streamBits_empty (W : Nat) : streamBits W emptyStream = some [] := rfl

/-- Every bit of a well-formed stream below BLEN can be read. -/
theorem bitAt_isSome {W : Nat} {st : BitStream} (hW : 0 < W) (h : StreamWf W st) {i : Nat} (hi : i < st.blen) :
    (bitAt W st i).isSome := by
  rw [bitAt, Option.isSome_map, Memory.read_isSome_of_keys h.1]
  exact div_lt_ceilDiv hW hi

/-- A well-formed stream reads back as a bit string. -/
theorem streamBits_isSome {W : Nat} {st : BitStream} (hW : 0 < W) (h : StreamWf W st) : (streamBits W st).isSome := by
  rw [streamBits, lookupAll_isSome_iff]
  exact fun i hi => bitAt_isSome hW h (List.mem_range.mp hi)

/-- Its length is BLEN (R110). -/
theorem streamBits_length {W : Nat} {st : BitStream} {l : Bits} (h : streamBits W st = some l) : l.length = st.blen := by
  rw [lookupAll_length h, List.length_range]

/-- Its i-th bit is `bit(i)` (R23). -/
theorem streamBits_getElem? {W : Nat} {st : BitStream} {l : Bits} (h : streamBits W st = some l) {i : Nat} (hi : i < st.blen) :
    bitAt W st i = l[i]? := by
  rw [lookupAll_getElem? h, List.getElem?_range hi, Option.bind_some]

/-- Index arithmetic inside one word. -/
theorem word_index {W n q : Nat} (hW : 0 < W) (hq : q < W) : (n / W * W + (W - 1 - q)) / W = n / W ∧
    W - 1 - (n / W * W + (W - 1 - q)) % W = q := by
  have : (n / W * W + (W - 1 - q)) / W = n / W := by
    rw [Nat.mul_comm, Nat.mul_add_div hW, Nat.div_eq_of_lt (show W - 1 - q < W by omega)]; omega
  refine ⟨this, ?_⟩
  rw [Nat.mul_comm, Nat.mul_add_mod, Nat.mod_eq_of_lt (by omega)]; omega

/-- The word that takes the next bit, after the growth of R113: it is listed, it is a W-bit word, and its bits from the append
point down are 0. -/
theorem append_point {W : Nat} {st : BitStream} (hW : 0 < W) (h : StreamWf W st) :
    ∃ bw w, bw = (if st.blen % W = 0 then st.bw.write (st.blen / W) 0 else st.bw) ∧
      bw.map Prod.fst = List.range (st.blen / W + 1) ∧ bw.read (st.blen / W) = some w ∧
      w % 2 ^ (W - 1 - st.blen % W + 1) = 0 ∧ (∀ e ∈ bw, e.2 < 2 ^ W) ∧
      (∀ a, a < st.blen / W → bw.read a = st.bw.read a) ∧
      (∀ i, i < st.blen → i / W = st.blen / W → st.bw.read (st.blen / W) = some w) := by
  obtain ⟨hk, hv, hp⟩ := h
  have hdm := Nat.div_add_mod st.blen W
  have hlt := Nat.mod_lt st.blen hW
  by_cases h0 : st.blen % W = 0
  · refine ⟨st.bw.write (st.blen / W) 0, 0, by rw [if_pos h0], ?_, by simp, by simp, ?_, ?_, ?_⟩
    · rw [ceilDiv_eq hW, if_pos h0] at hk
      exact Memory.keys_write_range hk 0
    · intro e he
      rcases Memory.mem_write he with rfl | he
      · exact Nat.pow_pos (by omega)
      · exact hv e he
    · exact fun a ha => Memory.read_write_other _ _ (by omega)
    · intro i hi hj
      exfalso
      have := Nat.div_mul_le_self i W
      have h1 := Nat.div_add_mod i W
      rw [hj] at h1
      omega
  · rw [ceilDiv_eq hW, if_neg h0] at hk hp
    obtain ⟨w, hw⟩ := Option.isSome_iff_exists.mp ((Memory.read_isSome_of_keys hk (st.blen / W)).mpr (by omega))
    refine ⟨st.bw, w, by rw [if_neg h0], hk, hw, ?_, hv, fun _ _ => rfl, fun _ _ _ => hw⟩
    rw [← low_bits_zero_iff]
    intro q hq
    have hb := hp (W - 1 - q - st.blen % W) (by rw [Nat.add_mul, Nat.mul_comm]; omega)
    have hidx : st.blen + (W - 1 - q - st.blen % W) = st.blen / W * W + (W - 1 - q) := by rw [Nat.mul_comm]; omega
    rw [hidx, bitAt, (word_index hW (by omega)).1, (word_index hW (by omega)).2, hw] at hb
    simpa using hb

/-- What `appendBit` does to a well-formed stream (R114): it answers, the stream stays well formed, BLEN grows by 1, the bit is at the
old BLEN, no earlier bit and no earlier word changes. -/
theorem appendBit_spec {W : Nat} {st : BitStream} (hW : 0 < W) (h : StreamWf W st) (b : Bool) :
    ∃ st', appendBit W b st = some st' ∧ StreamWf W st' ∧ st'.blen = st.blen + 1 ∧
      bitAt W st' st.blen = some b ∧ (∀ i < st.blen, bitAt W st' i = bitAt W st i) ∧
      (∀ a < st.blen / W, st'.bw.read a = st.bw.read a) := by
  obtain ⟨bw, w, hbw, hkeys, hread, hlow, hval, hbelow, hword⟩ := append_point hW h
  have hlt := Nat.mod_lt st.blen hW
  have hdm := Nat.div_add_mod st.blen W
  -- the new word, whichever the bit
  let w' := if b then w + 2 ^ (W - 1 - st.blen % W) else w
  let bw' := if b then bw.write (st.blen / W) (w + 2 ^ (W - 1 - st.blen % W)) else bw
  have happ : appendBit W b st = some { blen := st.blen + 1, bw := bw' } := by
    simp only [appendBit, ← hbw, hread]
    cases b <;> rfl
  have hbit : ∀ q, bitOf w' q = if q = W - 1 - st.blen % W then b else bitOf w q := by
    intro q
    cases b
    · simp only [w', Bool.false_eq_true, if_false]
      split
      · rename_i hq
        exact (low_bits_zero_iff w _).mpr hlow q (by omega)
      · rfl
    · simp only [w', if_true]
      exact bitOf_add_two_pow hlow q
  have hkeys' : bw'.map Prod.fst = List.range (st.blen / W + 1) := by
    cases b
    · exact hkeys
    · exact Memory.keys_write_below hkeys (by omega) _
  have hread' : bw'.read (st.blen / W) = some w' := by
    cases b
    · exact hread
    · simp [bw', w']
  have hother : ∀ a < st.blen / W, bw'.read a = st.bw.read a := by
    intro a ha
    rw [← hbelow a ha]
    cases b
    · rfl
    · exact Memory.read_write_other _ _ (by omega)
  refine ⟨_, happ, ⟨?_, ?_, ?_⟩, rfl, ?_, ?_, hother⟩
  · rw [ceilDiv_succ hW]; exact hkeys'
  · intro e he
    cases b
    · exact hval e he
    · rcases Memory.mem_write he with rfl | he
      · exact add_two_pow_lt hlow (hval _ (Memory.mem_of_read hread)) (by omega)
      · exact hval e he
  · intro k hk
    rw [ceilDiv_succ hW, Nat.add_mul, Nat.mul_comm] at hk
    dsimp only at hk ⊢
    have hidx : st.blen + 1 + k = st.blen / W * W + (W - 1 - (W - 1 - (st.blen % W + 1 + k))) := by
      rw [Nat.mul_comm]; omega
    rw [hidx, bitAt, (word_index hW (by omega)).1, (word_index hW (by omega)).2, hread', Option.map_some, hbit,
      if_neg (by omega)]
    exact congrArg some ((low_bits_zero_iff w _).mpr hlow _ (by omega))
  · rw [bitAt, hread', Option.map_some, hbit, if_pos rfl]
  · intro i hi
    rw [bitAt, bitAt]
    have hile : i / W ≤ st.blen / W := Nat.div_le_div_right (by omega)
    rcases Nat.lt_or_eq_of_le hile with hlt' | heq
    · rw [hother _ hlt']
    · rw [heq, hread', hword i hi heq, Option.map_some, Option.map_some, hbit, if_neg]
      have h1 := Nat.div_add_mod i W
      have h2 := Nat.mod_lt i hW
      rw [heq] at h1
      omega

/-- `appendBit` adds one bit at the end of the string (R110). -/
theorem appendBit_bits {W : Nat} {st : BitStream} {l : Bits} (hW : 0 < W) (h : StreamWf W st) (hl : streamBits W st = some l)
    (b : Bool) : ∃ st', appendBit W b st = some st' ∧ StreamWf W st' ∧ st'.blen = st.blen + 1 ∧
      streamBits W st' = some (l ++ [b]) ∧ (∀ a < st.blen / W, st'.bw.read a = st.bw.read a) := by
  obtain ⟨st', happ, hwf, hlen, hnew, hold, hmem⟩ := appendBit_spec hW h b
  refine ⟨st', happ, hwf, hlen, ?_, hmem⟩
  rw [streamBits, hlen, List.range_succ, lookupAll_append, lookupAll_congr (g := bitAt W st)
    (fun i hi => hold i (List.mem_range.mp hi)), lookupAll_cons, hnew]
  rw [streamBits] at hl
  simp [hl]

/-- `appendBits(v, w)` adds `bin_w(v)` at the end of the string (R110, R115). -/
theorem appendBits_bits {W : Nat} (hW : 0 < W) (v w : Nat) {st : BitStream} {l : Bits} (h : StreamWf W st)
    (hl : streamBits W st = some l) : ∃ st', appendBits W v w st = some st' ∧ StreamWf W st' ∧ st'.blen = st.blen + w ∧
      streamBits W st' = some (l ++ bin w v) ∧ (∀ a < st.blen / W, st'.bw.read a = st.bw.read a) := by
  induction w generalizing st l with
  | zero => exact ⟨st, rfl, h, rfl, by simpa using hl, fun _ _ => rfl⟩
  | succ w ih =>
    obtain ⟨st1, happ, hwf, hlen, hbits, hmem⟩ := appendBit_bits hW h hl (bitOf v w)
    obtain ⟨st2, happ2, hwf2, hlen2, hbits2, hmem2⟩ := ih hwf hbits
    refine ⟨st2, by simp [appendBits, happ, happ2], hwf2, by omega, by simpa [bin_succ] using hbits2, fun a ha => ?_⟩
    rw [hmem2 a (lt_of_lt_of_le ha (Nat.div_le_div_right (by omega))), hmem a ha]

/-- Packets are "concatenated in input order, each contributing exactly `width` bits, MSB-first" (R169). -/
theorem appendPackets_bits {W : Nat} (hW : 0 < W) (ps : List Packet) {st : BitStream} {l : Bits} (h : StreamWf W st)
    (hl : streamBits W st = some l) : ∃ st', appendPackets W ps st = some st' ∧ StreamWf W st' ∧
      st'.blen = st.blen + (flatten ps).length ∧ streamBits W st' = some (l ++ flatten ps) ∧
      (∀ a < st.blen / W, st'.bw.read a = st.bw.read a) := by
  induction ps generalizing st l with
  | nil => exact ⟨st, rfl, h, rfl, by simpa using hl, fun _ _ => rfl⟩
  | cons p ps ih =>
    obtain ⟨st1, happ, hwf, hlen, hbits, hmem⟩ := appendBits_bits hW p.value p.width h hl
    obtain ⟨st2, happ2, hwf2, hlen2, hbits2, hmem2⟩ := ih hwf hbits
    refine ⟨st2, by simp [appendPackets, happ, happ2], hwf2, ?_, by simpa [flatten_cons] using hbits2, fun a ha => ?_⟩
    · simp [flatten_cons, hlen2, hlen]; omega
    · rw [hmem2 a (lt_of_lt_of_le ha (Nat.div_le_div_right (by omega))), hmem a ha]

/-- Well-formed streams and bit strings "are in bijection" (R39): the bits determine BLEN and every word. -/
theorem stream_ext {W : Nat} {st st' : BitStream} (hW : 0 < W) (h : StreamWf W st) (h' : StreamWf W st')
    (hb : streamBits W st = streamBits W st') : st = st' := by
  obtain ⟨l, hl⟩ := Option.isSome_iff_exists.mp (streamBits_isSome hW h)
  have hl' : streamBits W st' = some l := hb ▸ hl
  have hlen : st.blen = st'.blen := by rw [← streamBits_length hl, ← streamBits_length hl']
  have hbit : ∀ i, i < ceilDiv st.blen W * W → bitAt W st i = bitAt W st' i := by
    intro i hi
    by_cases hlt : i < st.blen
    · rw [streamBits_getElem? hl hlt, streamBits_getElem? hl' (hlen ▸ hlt)]
    · have h1 := h.2.2 (i - st.blen) (by omega)
      have h2 := h'.2.2 (i - st.blen) (by rw [← hlen]; omega)
      rw [show st.blen + (i - st.blen) = i by omega] at h1
      rw [← hlen, show st.blen + (i - st.blen) = i by omega] at h2
      rw [h1, h2]
  have hbw : st.bw = st'.bw := by
    refine Memory.ext_of_read (Memory.wf_of_keys h.1) (by rw [h.1, h'.1, hlen]) fun a => ?_
    by_cases ha : a < ceilDiv st.blen W
    · obtain ⟨w, hw⟩ := Option.isSome_iff_exists.mp ((Memory.read_isSome_of_keys h.1 a).mpr ha)
      obtain ⟨w', hw'⟩ := Option.isSome_iff_exists.mp ((Memory.read_isSome_of_keys h'.1 a).mpr (hlen ▸ ha))
      rw [hw, hw']
      refine congrArg some (Nat.eq_of_testBit_eq fun q => ?_)
      by_cases hq : q < W
      · have hi : a * W + (W - 1 - q) < ceilDiv st.blen W * W := by
          have := Nat.mul_le_mul_right W (show a + 1 ≤ ceilDiv st.blen W from ha)
          rw [Nat.add_mul] at this
          omega
        have hidx := word_index (n := a * W) hW hq
        rw [Nat.mul_div_cancel a hW] at hidx
        have := hbit _ hi
        rw [bitAt, bitAt, hidx.1, hidx.2, hw, hw'] at this
        simpa [bitOf_eq_testBit] using this
      · have e1 := h.2.1 _ (Memory.mem_of_read hw)
        have e2 := h'.2.1 _ (Memory.mem_of_read hw')
        have hpow : (2 : Nat) ^ W ≤ 2 ^ q := Nat.pow_le_pow_right (by omega) (by omega)
        rw [Nat.testBit_lt_two_pow (e1.trans_le hpow), Nat.testBit_lt_two_pow (e2.trans_le hpow)]
    · rw [Memory.read_none_of_keys h.1 (by omega), Memory.read_none_of_keys h'.1 (by rw [← hlen]; omega)]
  cases st; cases st'
  simp_all

/-- Appending keeps the canonical form of the stream store, in every state. -/
theorem appendBit_memory_wf {W : Nat} {b : Bool} {st st' : BitStream} (h : st.bw.wf) (ha : appendBit W b st = some st') : st'.bw.wf := by
  have hg : (if st.blen % W = 0 then st.bw.write (st.blen / W) 0 else st.bw).wf := by
    split
    · exact Memory.write_wf h _ _
    · exact h
  simp only [appendBit] at ha
  split at ha
  · cases ha; exact hg
  · cases ha; exact Memory.write_wf hg _ _
  · cases ha

theorem appendBits_memory_wf {W v w : Nat} {st st' : BitStream} (h : st.bw.wf) (ha : appendBits W v w st = some st') : st'.bw.wf := by
  induction w generalizing st with
  | zero => cases ha; exact h
  | succ w ih =>
    rw [appendBits] at ha
    split at ha
    · exact ih (appendBit_memory_wf h ‹_›) ha
    · cases ha

theorem appendPackets_memory_wf {W : Nat} {ps : List Packet} {st st' : BitStream} (h : st.bw.wf)
    (ha : appendPackets W ps st = some st') : st'.bw.wf := by
  induction ps generalizing st with
  | nil => cases ha; exact h
  | cons p ps ih =>
    rw [appendPackets] at ha
    split at ha
    · exact ih (appendBits_memory_wf h ‹_›) ha
    · cases ha

/-- The reset state's memories are in canonical form: they list nothing (R38). -/
theorem reset_memories_wf : State.reset.stream.bw.wf ∧ State.reset.pbuf.wf := by decide

end Sys2Proof.Machine
end

