-- ==== Sys2Proof/Laws/Encoder.lean ====
section
/-! SUPPORT. The payload as read from a well-formed buffer, and the encoders: when they answer, and how many bits they make. -/

namespace Sys2Proof.Machine

/-- A buffer of exactly PLEN bytes is read whole (R25). -/
theorem payload_isSome {s : State} (h : PayloadWf s) : s.payload.isSome := by
  rw [State.payload, lookupAll_isSome_iff]
  exact fun i hi => (Memory.read_isSome_of_keys h.2 i).mpr (List.mem_range.mp hi)

/-- "The payload is the byte string of length L = PLEN" (R14). -/
theorem payload_length {s : State} {p : List Byte} (h : s.payload = some p) : p.length = s.plen := by
  rw [lookupAll_length h, List.length_range]

/-- The reading depends on PLEN and PBUF alone. -/
theorem payload_congr {s t : State} (hn : t.plen = s.plen) (hb : t.pbuf = s.pbuf) : t.payload = s.payload := by
  rw [State.payload, State.payload, hn, hb]

theorem digitOf_isSome (c : Byte) : (digitOf c).isSome = isNum c := by
  unfold digitOf; split <;> simp_all

/-- A run "fails integer parsing" exactly when it contains a byte outside 0x30..0x39 (R162). -/
theorem lookupAll_digitOf_isSome (p : List Byte) : (lookupAll digitOf p).isSome = p.all isNum := by
  rw [Bool.eq_iff_iff, lookupAll_isSome_iff, List.all_eq_true]
  simp [digitOf_isSome]

theorem lookupAll_acbRom_isSome (p : List Byte) : (lookupAll acbRom p).isSome = p.all isAlnum := by
  rw [Bool.eq_iff_iff, lookupAll_isSome_iff, List.all_eq_true]
  rfl

/-- The Numeric check (R162). -/
theorem packetsOf_numeric_ok {p : List Byte} (h : p.all isNum = true) :
    ∃ ds, lookupAll digitOf p = some ds ∧ packetsOf .numeric p = .ok (numericRuns ds) := by
  rw [← lookupAll_digitOf_isSome] at h
  obtain ⟨ds, hds⟩ := Option.isSome_iff_exists.mp h
  exact ⟨ds, hds, by simp [packetsOf, hds]⟩

theorem packetsOf_numeric_error {p : List Byte} (h : p.all isNum = false) : packetsOf .numeric p = .error .malformedNumericRun := by
  rw [← lookupAll_digitOf_isSome] at h
  have hnone : lookupAll digitOf p = none := by simpa using h
  simp [packetsOf, hnone]

/-- The Alphanumeric check (R166). -/
theorem packetsOf_alphanumeric_ok {p : List Byte} (h : p.all isAlnum = true) :
    ∃ vs, lookupAll acbRom p = some vs ∧ packetsOf .alphanumeric p = .ok (alphanumericPairs vs) := by
  rw [← lookupAll_acbRom_isSome] at h
  obtain ⟨vs, hvs⟩ := Option.isSome_iff_exists.mp h
  exact ⟨vs, hvs, by simp [packetsOf, hvs]⟩

theorem packetsOf_alphanumeric_error {p : List Byte} (h : p.all isAlnum = false) :
    packetsOf .alphanumeric p = .error .alphabetViolation := by
  rw [← lookupAll_acbRom_isSome] at h
  have hnone : lookupAll acbRom p = none := by simpa using h
  simp [packetsOf, hnone]

theorem numericRuns_bits (ds : List Nat) : (flatten (numericRuns ds)).length = payBits .numeric ds.length := by
  induction ds using numericRuns.induct with
  | case1 d0 d1 d2 ds ih =>
    simp only [numericRuns, flatten_cons, List.length_append, bin_length, ih, payBits, List.length_cons]
    simp only [show (ds.length + 1 + 1 + 1) / 3 = ds.length / 3 + 1 by omega,
      show (ds.length + 1 + 1 + 1) % 3 = ds.length % 3 by omega]
    omega
  | case2 d0 d1 => simp [numericRuns, flatten_cons, payBits]
  | case3 d0 => simp [numericRuns, flatten_cons, payBits]
  | case4 => simp [numericRuns, payBits]

theorem alphanumericPairs_bits (vs : List Nat) : (flatten (alphanumericPairs vs)).length = payBits .alphanumeric vs.length := by
  induction vs using alphanumericPairs.induct with
  | case1 a b vs ih =>
    simp only [alphanumericPairs, flatten_cons, List.length_append, bin_length, ih, payBits, List.length_cons]
    omega
  | case2 a => simp [alphanumericPairs, flatten_cons, payBits]
  | case3 => simp [alphanumericPairs, payBits]

theorem bytePackets_bits (p : List Byte) :
    (flatten (p.map fun c => { value := c.toNat, width := 8 })).length = payBits .byteText p.length := by
  induction p with
  | nil => rfl
  | cons c p ih => simp only [List.map_cons, flatten_cons, List.length_append, bin_length, ih, payBits, List.length_cons]; omega

/-- The encoders make `paybits(m, L)` bits (R170). -/
theorem packetsOf_bits {m : SegmentMode} {p : List Byte} {ps : List Packet} (h : packetsOf m p = .ok ps) :
    (flatten ps).length = payBits m p.length := by
  cases m with
  | numeric =>
    simp only [packetsOf] at h
    split at h
    · rename_i ds hds
      cases h
      rw [numericRuns_bits, lookupAll_length hds]
    · cases h
  | alphanumeric =>
    simp only [packetsOf] at h
    split at h
    · rename_i vs hvs
      cases h
      rw [alphanumericPairs_bits, lookupAll_length hvs]
    · cases h
  | byteText =>
    cases h
    exact bytePackets_bits p

/-- The faults an encoder's check can raise. -/
theorem packetsOf_error {m : SegmentMode} {p : List Byte} {code : FaultCode} (h : packetsOf m p = .error code) :
    (m = .numeric ∧ p.all isNum = false ∧ code = .malformedNumericRun) ∨
    (m = .alphanumeric ∧ p.all isAlnum = false ∧ code = .alphabetViolation) := by
  cases m with
  | numeric =>
    cases hb : p.all isNum with
    | false => rw [packetsOf_numeric_error hb] at h; cases h; exact .inl ⟨rfl, rfl, rfl⟩
    | true => obtain ⟨ds, -, hok⟩ := packetsOf_numeric_ok hb; rw [hok] at h; cases h
  | alphanumeric =>
    cases hb : p.all isAlnum with
    | false => rw [packetsOf_alphanumeric_error hb] at h; cases h; exact .inr ⟨rfl, rfl, rfl⟩
    | true => obtain ⟨ds, -, hok⟩ := packetsOf_alphanumeric_ok hb; rw [hok] at h; cases h
  | byteText => cases h

/-- The three steps of R185 from an empty stream, when the packets are those of the payload. -/
theorem encodeStream_bits {W : Nat} (hW : 0 < W) (m : SegmentMode) (plen cw : Nat) (ps : List Packet) :
    ∃ st, encodeStream W m plen cw ps = some st ∧ StreamWf W st ∧ st.blen = 4 + cw + (flatten ps).length ∧
      streamBits W st = some (bin 4 (segmentCode m).toNat ++ (bin cw plen ++ flatten ps)) := by
  obtain ⟨st1, h1, hwf1, hlen1, hbits1, -⟩ :=
    appendPackets_bits hW (headerPackets m plen cw) (emptyStream_wf hW) (streamBits_empty W)
  obtain ⟨st2, h2, hwf2, hlen2, hbits2, -⟩ := appendPackets_bits hW ps hwf1 hbits1
  refine ⟨st2, by simp [encodeStream, h1, h2], hwf2, ?_, ?_⟩
  · rw [hlen2, hlen1]; simp [headerPackets, flatten_cons]
  · rw [hbits2]; simp [headerPackets, flatten_cons]

end Sys2Proof.Machine
end

