-- ==== Sys2Proof/Laws/Exec.lean ====
section
/-! SUPPORT. Everything each shared operation can answer: the prologue (R226), the checks, the two templates R171 and R185. -/

namespace Sys2Proof.Machine

/-- Normal state: the command's own rule (R226). -/
theorem unlessFaulted_normal {s : State} {r : Result} (h : s.fault = 0) : unlessFaulted s r = r := if_pos h

/-- Fault state: refused (R226, R227). -/
theorem unlessFaulted_faulted {s : State} {r : Result} (h : s.fault ≠ 0) : unlessFaulted s r = .next s.refusedInFault := if_neg h

theorem withVersion_ok {v : Nat} {s : State} {r : Result} (h : 1 ≤ v ∧ v ≤ 40) : withVersion v s r = r :=
  if_neg (by omega)

theorem withVersion_bad {v : Nat} {s : State} {r : Result} (h : ¬ (1 ≤ v ∧ v ≤ 40)) :
    withVersion v s r = .next (s.raised .badOperand) := if_pos (by omega)

theorem withWidth_ok {w : Nat} {s : State} {r : Result} (h : w ≤ s.params.W) : withWidth w s r = r := if_neg (by omega)

theorem withWidth_bad {w : Nat} {s : State} {r : Result} (h : s.params.W < w) : withWidth w s r = .next (s.raised .badOperand) :=
  if_pos h

theorem withRoom_ok {n : Nat} {s : State} {r : Result} (h : n ≤ s.params.maxBits) : withRoom n s r = r := if_neg (by omega)

theorem withRoom_full {n : Nat} {s : State} {r : Result} (h : s.params.maxBits < n) :
    withRoom n s r = .next (s.raised .streamOverflow) := if_pos h

theorem withPayload_some {s : State} {p : List Byte} {f : List Byte → Result} (h : s.payload = some p) : withPayload s f = f p := by
  simp [withPayload, h]

theorem withStreamWord_bad {i : Nat} {s : State} {f : Nat → Result} (h : s.nwords ≤ i) :
    withStreamWord i s f = .next (s.raised .badOperand) := if_pos h

theorem withStreamWord_some {i : Nat} {s : State} {f : Nat → Result} {w : Nat} (h : i < s.nwords)
    (hw : s.stream.bw.read i = some w) : withStreamWord i s f = f w := by
  rw [withStreamWord, if_neg (by omega), hw]

/-- ENC.x on a well-formed stream, payload in the alphabet, with room (R171): the packets' bits are appended. -/
theorem appendPayload_ok {m : SegmentMode} {s : State} {p : List Byte} {ps : List Packet} {l : Bits} (hf : s.fault = 0)
    (hW : 0 < s.params.W) (hst : StreamWf s.params.W s.stream) (hl : streamBits s.params.W s.stream = some l)
    (hp : s.payload = some p) (hps : packetsOf m p = .ok ps) (hroom : s.stream.blen + payBits m s.plen ≤ s.params.maxBits) :
    ∃ st, appendPayload m s = .next { s with stream := st, segv := false, rsp := some { f := 0, d := st.blen } } ∧
      StreamWf s.params.W st ∧ st.blen = s.stream.blen + payBits m s.plen ∧
      streamBits s.params.W st = some (l ++ flatten ps) ∧ (∀ a < s.stream.blen / s.params.W, st.bw.read a = s.stream.bw.read a) := by
  obtain ⟨st, happ, hwf, hlen, hbits, hmem⟩ := appendPackets_bits hW ps hst hl
  refine ⟨st, ?_, hwf, ?_, hbits, hmem⟩
  · simp only [appendPayload, unlessFaulted_normal hf, withPayload_some hp, hps, withRoom_ok hroom, happ, withAppended]
    rfl
  · rw [hlen, packetsOf_bits hps, payload_length hp]

theorem appendPayload_alphabet {m : SegmentMode} {s : State} {p : List Byte} {code : FaultCode} (hf : s.fault = 0)
    (hp : s.payload = some p) (hps : packetsOf m p = .error code) : appendPayload m s = .next (s.raised code) := by
  simp only [appendPayload, unlessFaulted_normal hf, withPayload_some hp, hps, raiseFault]

theorem appendPayload_full {m : SegmentMode} {s : State} {p : List Byte} {ps : List Packet} (hf : s.fault = 0)
    (hp : s.payload = some p) (hps : packetsOf m p = .ok ps) (hroom : s.params.maxBits < s.stream.blen + payBits m s.plen) :
    appendPayload m s = .next (s.raised .streamOverflow) := by
  simp only [appendPayload, unlessFaulted_normal hf, withPayload_some hp, hps, withRoom_full hroom]

/-- The body of ENCODE.x when all checks pass (R185). -/
theorem encodePayload_ok {m : SegmentMode} {s : State} {p : List Byte} {ps : List Packet} (hW : 0 < s.params.W)
    (hp : p.length = s.plen) (hps : packetsOf m p = .ok ps)
    (hroom : 4 + ccw (encodingOf m) s.version.toNat + payBits m s.plen ≤ s.params.maxBits) :
    ∃ st, encodePayload m p s =
        .next { s with stream := st, mode := segmentCode m, segv := true, rsp := some { f := 0, d := st.blen } } ∧
      StreamWf s.params.W st ∧ st.blen = 4 + ccw (encodingOf m) s.version.toNat + payBits m s.plen ∧
      streamBits s.params.W st =
        some (bin 4 (segmentCode m).toNat ++ (bin (ccw (encodingOf m) s.version.toNat) s.plen ++ flatten ps)) := by
  obtain ⟨st, hst, hwf, hlen, hbits⟩ := encodeStream_bits hW m s.plen (ccw (encodingOf m) s.version.toNat) ps
  refine ⟨st, ?_, hwf, ?_, hbits⟩
  · simp only [encodePayload, hps, withRoom_ok hroom, hst, withAppended]
    rfl
  · rw [hlen, packetsOf_bits hps, hp]

theorem encodePayload_alphabet {m : SegmentMode} {s : State} {p : List Byte} {code : FaultCode} (hps : packetsOf m p = .error code) :
    encodePayload m p s = .next (s.raised code) := by
  simp only [encodePayload, hps, raiseFault]

theorem encodePayload_full {m : SegmentMode} {s : State} {p : List Byte} {ps : List Packet} (hps : packetsOf m p = .ok ps)
    (hroom : s.params.maxBits < 4 + ccw (encodingOf m) s.version.toNat + payBits m s.plen) :
    encodePayload m p s = .next (s.raised .streamOverflow) := by
  simp only [encodePayload, hps, withRoom_full hroom]

/-- ENCODE.x before any version is set (R183). -/
theorem encodeSegment_unset {x : Option SegmentMode} {s : State} (hf : s.fault = 0) (hv : s.version = 0) :
    encodeSegment x s = .next (s.raised .badOperand) := by
  simp only [encodeSegment, unlessFaulted_normal hf, if_pos hv, raiseFault]

/-- ENCODE.x with a version set: the body of R185 on the payload. -/
theorem encodeSegment_set {x : Option SegmentMode} {s : State} {p : List Byte} (hf : s.fault = 0) (hv : s.version ≠ 0)
    (hp : s.payload = some p) : encodeSegment x s = encodePayload (x.getD (classifyBytes p)) p s := by
  simp only [encodeSegment, unlessFaulted_normal hf, if_neg hv, withPayload_some hp]

/-! The same, read from the answer: what must have happened when an operation answered a next state. -/

theorem next_of_unlessFaulted {s t : State} {r : Result} (h : unlessFaulted s r = .next t) :
    (s.fault ≠ 0 ∧ t = s.refusedInFault) ∨ (s.fault = 0 ∧ r = .next t) := by
  by_cases hf : s.fault = 0
  · exact .inr ⟨hf, by rwa [unlessFaulted_normal hf] at h⟩
  · rw [unlessFaulted_faulted hf] at h
    cases h
    exact .inl ⟨hf, rfl⟩

theorem next_of_withVersion {v : Nat} {s t : State} {r : Result} (h : withVersion v s r = .next t) :
    (¬ (1 ≤ v ∧ v ≤ 40) ∧ t = s.raised .badOperand) ∨ ((1 ≤ v ∧ v ≤ 40) ∧ r = .next t) := by
  by_cases hv : 1 ≤ v ∧ v ≤ 40
  · exact .inr ⟨hv, by rwa [withVersion_ok hv] at h⟩
  · rw [withVersion_bad hv] at h
    cases h
    exact .inl ⟨hv, rfl⟩

theorem next_of_withWidth {w : Nat} {s t : State} {r : Result} (h : withWidth w s r = .next t) :
    (s.params.W < w ∧ t = s.raised .badOperand) ∨ (w ≤ s.params.W ∧ r = .next t) := by
  rcases Nat.lt_or_ge s.params.W w with hw | hw
  · rw [withWidth_bad hw] at h
    cases h
    exact .inl ⟨hw, rfl⟩
  · exact .inr ⟨hw, by rwa [withWidth_ok hw] at h⟩

theorem next_of_withRoom {n : Nat} {s t : State} {r : Result} (h : withRoom n s r = .next t) :
    (s.params.maxBits < n ∧ t = s.raised .streamOverflow) ∨ (n ≤ s.params.maxBits ∧ r = .next t) := by
  rcases Nat.lt_or_ge s.params.maxBits n with hn | hn
  · rw [withRoom_full hn] at h
    cases h
    exact .inl ⟨hn, rfl⟩
  · exact .inr ⟨hn, by rwa [withRoom_ok hn] at h⟩

theorem next_of_withPayload {s t : State} {f : List Byte → Result} (h : withPayload s f = .next t) :
    ∃ p, s.payload = some p ∧ f p = .next t := by
  cases hp : s.payload with
  | none => simp [withPayload, hp] at h
  | some p => exact ⟨p, rfl, by rwa [withPayload_some hp] at h⟩

theorem next_of_withStreamWord {i : Nat} {s t : State} {f : Nat → Result} (h : withStreamWord i s f = .next t) :
    (s.nwords ≤ i ∧ t = s.raised .badOperand) ∨ (i < s.nwords ∧ ∃ w, s.stream.bw.read i = some w ∧ f w = .next t) := by
  rcases Nat.lt_or_ge i s.nwords with hi | hi
  · cases hw : s.stream.bw.read i with
    | none => simp [withStreamWord, hw, Nat.not_le.mpr hi] at h
    | some w => exact .inr ⟨hi, w, rfl, by rwa [withStreamWord_some hi hw] at h⟩
  · rw [withStreamWord_bad hi] at h
    cases h
    exact .inl ⟨hi, rfl⟩

theorem next_of_withAppended {st : Option BitStream} {t : State} {f : BitStream → Result} (h : withAppended st f = .next t) :
    ∃ st', st = some st' ∧ f st' = .next t := by
  cases st with
  | none => simp [withAppended] at h
  | some st' => exact ⟨st', rfl, h⟩

/-- ENC.x: refused, the alphabet fault, the room fault, or the packets appended (R171). -/
theorem next_of_appendPayload {m : SegmentMode} {s t : State} (h : appendPayload m s = .next t) :
    (s.fault ≠ 0 ∧ t = s.refusedInFault) ∨ (s.fault = 0 ∧ ∃ p, s.payload = some p ∧
      ((∃ code, packetsOf m p = .error code ∧ t = s.raised code) ∨
       (∃ ps, packetsOf m p = .ok ps ∧
        ((s.params.maxBits < s.stream.blen + payBits m s.plen ∧ t = s.raised .streamOverflow) ∨
         (s.stream.blen + payBits m s.plen ≤ s.params.maxBits ∧ ∃ st, appendPackets s.params.W ps s.stream = some st ∧
          t = { s with stream := st, segv := false, rsp := some { f := 0, d := st.blen } }))))) := by
  obtain ⟨hf, rfl⟩ | ⟨hf, h⟩ := next_of_unlessFaulted h
  · exact .inl ⟨hf, rfl⟩
  · obtain ⟨p, hp, h⟩ := next_of_withPayload h
    refine .inr ⟨hf, p, hp, ?_⟩
    cases hps : packetsOf m p with
    | error code =>
      rw [hps] at h
      cases h
      exact .inl ⟨code, rfl, rfl⟩
    | ok ps =>
      rw [hps] at h
      obtain ⟨hr, rfl⟩ | ⟨hr, h⟩ := next_of_withRoom h
      · exact .inr ⟨ps, rfl, .inl ⟨hr, rfl⟩⟩
      · obtain ⟨st, hst, h⟩ := next_of_withAppended h
        cases h
        exact .inr ⟨ps, rfl, .inr ⟨hr, st, hst, rfl⟩⟩

/-- ENCODE.x other than K: refused, no version, the alphabet fault, the room fault, or the segment (R185). -/
theorem next_of_encodeSegment {x : Option SegmentMode} {s t : State} (h : encodeSegment x s = .next t) :
    (s.fault ≠ 0 ∧ t = s.refusedInFault) ∨ (s.fault = 0 ∧
      ((s.version = 0 ∧ t = s.raised .badOperand) ∨ (s.version ≠ 0 ∧ ∃ p m, s.payload = some p ∧ m = x.getD (classifyBytes p) ∧
       ((∃ code, packetsOf m p = .error code ∧ t = s.raised code) ∨
        (∃ ps, packetsOf m p = .ok ps ∧
         ((s.params.maxBits < 4 + ccw (encodingOf m) s.version.toNat + payBits m s.plen ∧ t = s.raised .streamOverflow) ∨
          (4 + ccw (encodingOf m) s.version.toNat + payBits m s.plen ≤ s.params.maxBits ∧ ∃ st,
            encodeStream s.params.W m s.plen (ccw (encodingOf m) s.version.toNat) ps = some st ∧
            t = { s with stream := st, mode := segmentCode m, segv := true, rsp := some { f := 0, d := st.blen } }))))))) := by
  obtain ⟨hf, rfl⟩ | ⟨hf, h⟩ := next_of_unlessFaulted h
  · exact .inl ⟨hf, rfl⟩
  · refine .inr ⟨hf, ?_⟩
    by_cases hv : s.version = 0
    · rw [if_pos hv] at h
      cases h
      exact .inl ⟨hv, rfl⟩
    · rw [if_neg hv] at h
      obtain ⟨p, hp, h⟩ := next_of_withPayload h
      refine .inr ⟨hv, p, _, hp, rfl, ?_⟩
      simp only [encodePayload] at h
      cases hps : packetsOf (x.getD (classifyBytes p)) p with
      | error code =>
        rw [hps] at h
        cases h
        exact .inl ⟨code, rfl, rfl⟩
      | ok ps =>
        rw [hps] at h
        obtain ⟨hr, rfl⟩ | ⟨hr, h⟩ := next_of_withRoom h
        · exact .inr ⟨ps, rfl, .inl ⟨hr, rfl⟩⟩
        · obtain ⟨st, hst, h⟩ := next_of_withAppended h
          cases h
          exact .inr ⟨ps, rfl, .inr ⟨hr, st, hst, rfl⟩⟩

end Sys2Proof.Machine
end

