-- ==== Sys2Proof/Laws/Effects.lean ====
section
/-! SUPPORT. Said once: everything a command can do. `Raises` lists the faults with the check that found them, `Effect` the successes with
the checks passed, and `exec_cases` says that a next state of exec comes from one of these or from a refusal. -/

namespace Sys2Proof.Machine

/-- The command looks up the width of mode m at version v (R144 to R147). -/
inductive LooksUp : Instr → EncodingMode → Nat → Prop
  | numeric {v} : LooksUp (.ccwN v) .numeric v
  | alphanumeric {v} : LooksUp (.ccwA v) .alphanumeric v
  | byteText {v} : LooksUp (.ccwB v) .byteText v
  | kanji {v} : LooksUp (.ccwK v) .kanji v

/-- The command appends the payload in mode m (R172 to R174). -/
inductive Appends : Instr → SegmentMode → Prop
  | numeric : Appends .encN .numeric
  | alphanumeric : Appends .encA .alphanumeric
  | byteText : Appends .encB .byteText

/-- The command makes the segment in mode m, the classifier's for payload p where it names none (R188 to R191). -/
inductive Encodes (p : List Byte) : Instr → SegmentMode → Prop
  | auto : Encodes p .encodeAuto (classifyBytes p)
  | numeric : Encodes p .encodeN .numeric
  | alphanumeric : Encodes p .encodeA .alphanumeric
  | byteText : Encodes p .encodeB .byteText

/-- The command's own check that fails, and the fault it raises. -/
inductive Raises (s : State) : Instr → FaultCode → Prop
  | version {v} (h : ¬ (1 ≤ v ∧ v ≤ 40)) : Raises s (.setver v) .badOperand
  | bufferFull {c} (h : s.plen = s.params.PMAX) : Raises s (.plPush c) .payloadOverflow
  | noRoomBit {b} (h : s.params.maxBits < s.stream.blen + 1) : Raises s (.bsBit b) .streamOverflow
  | width {w v} (h : s.params.W < imm8Nat w) : Raises s (.bsBits w v) .badOperand
  | noRoomBits {w v} (h : s.params.maxBits < s.stream.blen + imm8Nat w) : Raises s (.bsBits w v) .streamOverflow
  | index {j} (h : s.nwords ≤ j) : Raises s (.bsData j) .badOperand
  | widthVersion {i m v} (hi : LooksUp i m v) (h : ¬ (1 ≤ v ∧ v ≤ 40)) : Raises s i .badOperand
  | noEntry {c} (h : acbRom c = none) : Raises s (.acb c) .alphabetViolation
  | encAlphabet {i m p code} (hi : Appends i m) (hp : s.payload = some p) (h : packetsOf m p = .error code) : Raises s i code
  | encNoRoom {i m p ps} (hi : Appends i m) (hp : s.payload = some p) (hps : packetsOf m p = .ok ps)
      (h : s.params.maxBits < s.stream.blen + payBits m s.plen) : Raises s i .streamOverflow
  | encKanji : Raises s .encK .unsupportedMode
  | encodeUnset {i} {m : SegmentMode} {p : List Byte} (hi : Encodes p i m) (h : s.version = 0) : Raises s i .badOperand
  | encodeAlphabet {i m p code} (hi : Encodes p i m) (hv : s.version ≠ 0) (hp : s.payload = some p)
      (h : packetsOf m p = .error code) : Raises s i code
  | encodeNoRoom {i m p ps} (hi : Encodes p i m) (hv : s.version ≠ 0) (hp : s.payload = some p) (hps : packetsOf m p = .ok ps)
      (h : s.params.maxBits < 4 + ccw (encodingOf m) s.version.toNat + payBits m s.plen) : Raises s i .streamOverflow
  | encodeKanji : Raises s .encodeK .unsupportedMode

/-- What a command that passes its checks does. -/
inductive Effect (s : State) : Instr → State → Prop
  | rdstat : Effect s .rdstat (s.answered s.fault (statusWord s))
  | setver {v} (h : 1 ≤ v ∧ v ≤ 40) :
      Effect s (.setver v) { s with version := BitVec.ofNat 6 v, segv := false, rsp := some { f := 0, d := 0 } }
  | setecl {e} : Effect s (.setecl e) { s with ecl := e, rsp := some { f := 0, d := 0 } }
  | plClr : Effect s .plClr { s with plen := 0, pbuf := [], segv := false, rsp := some { f := 0, d := 0 } }
  | plPush {c} (h : s.plen ≠ s.params.PMAX) :
      Effect s (.plPush c) { s with pbuf := s.pbuf.write s.plen c
                                    plen := s.plen + 1
                                    segv := false
                                    rsp := some { f := 0, d := s.plen + 1 } }
  | bsNew : Effect s .bsNew { s with stream := emptyStream, segv := false, rsp := some { f := 0, d := 0 } }
  | bsBit {b st} (hr : s.stream.blen + 1 ≤ s.params.maxBits) (h : appendBit s.params.W (imm1Bit b) s.stream = some st) :
      Effect s (.bsBit b) { s with stream := st, segv := false, rsp := some { f := 0, d := st.blen } }
  | bsBits {w v st} (hw : imm8Nat w ≤ s.params.W) (hr : s.stream.blen + imm8Nat w ≤ s.params.maxBits)
      (h : appendBits s.params.W v (imm8Nat w) s.stream = some st) :
      Effect s (.bsBits w v) { s with stream := st, segv := false, rsp := some { f := 0, d := st.blen } }
  | bsLen : Effect s .bsLen (s.answered 0 s.stream.blen)
  | bsData {j w} (hj : j < s.nwords) (h : s.stream.bw.read j = some w) : Effect s (.bsData j) (s.answered 0 w)
  | classify {p} (h : s.payload = some p) :
      Effect s .classify { s with mode := segmentCode (classifyBytes p)
                                  segv := false
                                  rsp := some { f := 0, d := (segmentCode (classifyBytes p)).toNat } }
  | ccw {i m v} (hi : LooksUp i m v) (h : 1 ≤ v ∧ v ≤ 40) : Effect s i (s.answered 0 (ccw m v))
  | acb {c v} (h : acbRom c = some v) : Effect s (.acb c) (s.answered 0 v)
  | enc {i m p ps st} (hi : Appends i m) (hp : s.payload = some p) (hps : packetsOf m p = .ok ps)
      (hr : s.stream.blen + payBits m s.plen ≤ s.params.maxBits) (h : appendPackets s.params.W ps s.stream = some st) :
      Effect s i { s with stream := st, segv := false, rsp := some { f := 0, d := st.blen } }
  | encode {i m p ps st} (hi : Encodes p i m) (hv : s.version ≠ 0) (hp : s.payload = some p) (hps : packetsOf m p = .ok ps)
      (hr : 4 + Sys2Proof.Machine.ccw (encodingOf m) s.version.toNat + payBits m s.plen ≤ s.params.maxBits)
      (h : encodeStream s.params.W m s.plen (Sys2Proof.Machine.ccw (encodingOf m) s.version.toNat) ps = some st) :
      Effect s i { s with stream := st, mode := segmentCode m, segv := true, rsp := some { f := 0, d := st.blen } }

/-- The four ways a command ends in a next state. -/
inductive Outcome (s : State) (i : Instr) (t : State) : Prop
  | restored (hi : i = .init) (ht : t = s.restored.answered 0 0)
  | refused (hf : s.fault ≠ 0) (hi : i ≠ .init) (hr : i ≠ .rdstat) (ht : t = s.refusedInFault)
  | raised (hf : s.fault = 0) (code : FaultCode) (h : Raises s i code) (ht : t = s.raised code)
  | done (hf : s.fault = 0 ∨ i = .rdstat) (h : Effect s i t)

theorem outcome_of_lookUpWidth {i : Instr} {m : EncodingMode} {v : Nat} {s t : State} (hi : LooksUp i m v)
    (h : lookUpWidth m v s = .next t) : Outcome s i t := by
  obtain ⟨hf, ht⟩ | ⟨hf, h⟩ := next_of_unlessFaulted h
  · exact .refused hf (by rintro rfl; cases hi) (by rintro rfl; cases hi) ht
  · obtain ⟨hv, ht⟩ | ⟨hv, h⟩ := next_of_withVersion h
    · exact .raised hf _ (.widthVersion hi hv) ht
    · cases h
      exact .done (.inl hf) (.ccw hi hv)

theorem outcome_of_appendPayload {i : Instr} {m : SegmentMode} {s t : State} (hi : Appends i m)
    (h : appendPayload m s = .next t) : Outcome s i t := by
  obtain ⟨hf, ht⟩ | ⟨hf, p, hp, ⟨code, hps, ht⟩ | ⟨ps, hps, ⟨hr, ht⟩ | ⟨hr, st, hst, ht⟩⟩⟩ := next_of_appendPayload h
  · exact .refused hf (by rintro rfl; cases hi) (by rintro rfl; cases hi) ht
  · exact .raised hf _ (.encAlphabet hi hp hps) ht
  · exact .raised hf _ (.encNoRoom hi hp hps hr) ht
  · exact .done (.inl hf) (ht ▸ .enc hi hp hps hr hst)

theorem outcome_of_encodeSegment {i : Instr} {x : Option SegmentMode} {s t : State}
    (hi : ∀ p, Encodes p i (x.getD (classifyBytes p))) (h : encodeSegment x s = .next t) : Outcome s i t := by
  obtain ⟨hf, ht⟩ | ⟨hf, ⟨hv, ht⟩ | ⟨hv, p, m, hp, rfl, ⟨code, hps, ht⟩ | ⟨ps, hps, ⟨hr, ht⟩ | ⟨hr, st, hst, ht⟩⟩⟩⟩ :=
    next_of_encodeSegment h
  · exact .refused hf (by rintro rfl; cases hi []) (by rintro rfl; cases hi []) ht
  · exact .raised hf _ (.encodeUnset (hi []) hv) ht
  · exact .raised hf _ (.encodeAlphabet (hi p) hv hp hps) ht
  · exact .raised hf _ (.encodeNoRoom (hi p) hv hp hps hr) ht
  · exact .done (.inl hf) (ht ▸ .encode (hi p) hv hp hps hr hst)

/-- Every next state of exec is one of these. -/
theorem exec_cases {i : Instr} {s t : State} (h : exec i s = .next t) : Outcome s i t := by
  cases i with
  | init => cases h; exact .restored rfl rfl
  | rdstat => cases h; exact .done (.inr rfl) .rdstat
  | setver v =>
    obtain ⟨hf, ht⟩ | ⟨hf, h⟩ := next_of_unlessFaulted h
    · exact .refused hf (by simp) (by simp) ht
    · obtain ⟨hv, ht⟩ | ⟨hv, h⟩ := next_of_withVersion h
      · exact .raised hf _ (.version hv) ht
      · cases h; exact .done (.inl hf) (.setver hv)
  | setecl e =>
    obtain ⟨hf, ht⟩ | ⟨hf, h⟩ := next_of_unlessFaulted h
    · exact .refused hf (by simp) (by simp) ht
    · cases h; exact .done (.inl hf) .setecl
  | plClr =>
    obtain ⟨hf, ht⟩ | ⟨hf, h⟩ := next_of_unlessFaulted h
    · exact .refused hf (by simp) (by simp) ht
    · cases h; exact .done (.inl hf) .plClr
  | plPush c =>
    obtain ⟨hf, ht⟩ | ⟨hf, h⟩ := next_of_unlessFaulted h
    · exact .refused hf (by simp) (by simp) ht
    · split at h
      · cases h; exact .raised hf _ (.bufferFull ‹_›) rfl
      · cases h; exact .done (.inl hf) (.plPush ‹_›)
  | bsNew =>
    obtain ⟨hf, ht⟩ | ⟨hf, h⟩ := next_of_unlessFaulted h
    · exact .refused hf (by simp) (by simp) ht
    · cases h; exact .done (.inl hf) .bsNew
  | bsBit b =>
    obtain ⟨hf, ht⟩ | ⟨hf, h⟩ := next_of_unlessFaulted h
    · exact .refused hf (by simp) (by simp) ht
    · obtain ⟨hr, ht⟩ | ⟨hr, h⟩ := next_of_withRoom h
      · exact .raised hf _ (.noRoomBit hr) ht
      · obtain ⟨st, hst, h⟩ := next_of_withAppended h
        cases h; exact .done (.inl hf) (.bsBit hr hst)
  | bsBits w v =>
    obtain ⟨hf, ht⟩ | ⟨hf, h⟩ := next_of_unlessFaulted h
    · exact .refused hf (by simp) (by simp) ht
    · obtain ⟨hw, ht⟩ | ⟨hw, h⟩ := next_of_withWidth h
      · exact .raised hf _ (.width hw) ht
      · obtain ⟨hr, ht⟩ | ⟨hr, h⟩ := next_of_withRoom h
        · exact .raised hf _ (.noRoomBits hr) ht
        · obtain ⟨st, hst, h⟩ := next_of_withAppended h
          cases h; exact .done (.inl hf) (.bsBits hw hr hst)
  | bsLen =>
    obtain ⟨hf, ht⟩ | ⟨hf, h⟩ := next_of_unlessFaulted h
    · exact .refused hf (by simp) (by simp) ht
    · cases h; exact .done (.inl hf) .bsLen
  | bsData j =>
    obtain ⟨hf, ht⟩ | ⟨hf, h⟩ := next_of_unlessFaulted h
    · exact .refused hf (by simp) (by simp) ht
    · obtain ⟨hj, ht⟩ | ⟨hj, w, hw, h⟩ := next_of_withStreamWord h
      · exact .raised hf _ (.index hj) ht
      · cases h; exact .done (.inl hf) (.bsData hj hw)
  | classify =>
    obtain ⟨hf, ht⟩ | ⟨hf, h⟩ := next_of_unlessFaulted h
    · exact .refused hf (by simp) (by simp) ht
    · obtain ⟨p, hp, h⟩ := next_of_withPayload h
      cases h; exact .done (.inl hf) (.classify hp)
  | ccwN v => exact outcome_of_lookUpWidth .numeric h
  | ccwA v => exact outcome_of_lookUpWidth .alphanumeric h
  | ccwB v => exact outcome_of_lookUpWidth .byteText h
  | ccwK v => exact outcome_of_lookUpWidth .kanji h
  | acb c =>
    obtain ⟨hf, ht⟩ | ⟨hf, h⟩ := next_of_unlessFaulted h
    · exact .refused hf (by simp) (by simp) ht
    · cases hc : acbRom c with
      | none => rw [hc] at h; cases h; exact .raised hf _ (.noEntry hc) rfl
      | some v => rw [hc] at h; cases h; exact .done (.inl hf) (.acb hc)
  | encN => exact outcome_of_appendPayload .numeric h
  | encA => exact outcome_of_appendPayload .alphanumeric h
  | encB => exact outcome_of_appendPayload .byteText h
  | encK =>
    obtain ⟨hf, ht⟩ | ⟨hf, h⟩ := next_of_unlessFaulted h
    · exact .refused hf (by simp) (by simp) ht
    · cases h; exact .raised hf _ .encKanji rfl
  | encodeAuto => exact outcome_of_encodeSegment (fun p => .auto) h
  | encodeN => exact outcome_of_encodeSegment (fun p => .numeric) h
  | encodeA => exact outcome_of_encodeSegment (fun p => .alphanumeric) h
  | encodeB => exact outcome_of_encodeSegment (fun p => .byteText) h
  | encodeK =>
    obtain ⟨hf, ht⟩ | ⟨hf, h⟩ := next_of_unlessFaulted h
    · exact .refused hf (by simp) (by simp) ht
    · cases h; exact .raised hf _ .encodeKanji rfl

end Sys2Proof.Machine
end

