-- ==== Sys2Proof/Laws/PerInstr.lean ====
section
/-! SUPPORT. Statements about every instruction as syntax. HeaderInTable: the header the encoder writes for an instruction is in the row of
R86 that carries the instruction's mnemonic. -/

namespace Sys2Proof.Laws.HeaderInTable

/-- "A header is legal exactly when `CH & mask = match` for one row" (R86), and it is the row of the instruction's own mnemonic. -/
def Statement (i : Instr) : Prop := ∃ r ∈ opcodeRows, r.mnemonic = mnemonicOf i ∧ r.matches (headerOf i) = true

/-- A row of the table that the header matches. -/
theorem of_row {i : Instr} (r : OpcodeRow) (hr : r ∈ opcodeRows) (hm : r.mnemonic = mnemonicOf i)
    (hh : r.matches (headerOf i) = true) : Statement i := ⟨r, hr, hm, hh⟩

/-- A header with an 8-bit immediate matches the row whose mask keeps op alone. -/
theorem matches_imm8 (op : BitVec 4) (c : BitVec 8) (n : String) :
    OpcodeRow.matches { mnemonic := n, pattern := mkHeader op 0#8, mask := 0xF00#12 } (mkHeader op c) = true := by
  simp only [OpcodeRow.matches, beq_iff_eq, mkHeader]
  revert op c
  decide +kernel

theorem init : Statement .init :=
  of_row ⟨"INIT", 0x000#12, 0xFFF#12⟩ (by decide) rfl rfl

theorem rdstat : Statement .rdstat :=
  of_row ⟨"RDSTAT", 0x100#12, 0xFFF#12⟩ (by decide) rfl rfl

theorem setver (v : Nat) : Statement (.setver v) :=
  of_row ⟨"SETVER", 0x200#12, 0xFFF#12⟩ (by decide) rfl (show OpcodeRow.matches _ 0x200#12 = true by decide)

theorem setecl (e : BitVec 2) : Statement (.setecl e) :=
  of_row ⟨"SETECL", 0x300#12, 0xFFC#12⟩ (by decide) rfl (by revert e; decide)

theorem plClr : Statement .plClr :=
  of_row ⟨"PL.CLR", 0x400#12, 0xFFF#12⟩ (by decide) rfl rfl

theorem plPush (c : Byte) : Statement (.plPush c) :=
  of_row ⟨"PL.PUSH", 0x500#12, 0xF00#12⟩ (by decide) rfl (matches_imm8 0x5#4 c _)

theorem bsNew : Statement .bsNew :=
  of_row ⟨"BS.NEW", 0x600#12, 0xFFF#12⟩ (by decide) rfl rfl

theorem bsBit (b : BitVec 1) : Statement (.bsBit b) :=
  of_row ⟨"BS.BIT", 0x700#12, 0xFFE#12⟩ (by decide) rfl (by revert b; decide)

theorem bsBits (width : BitVec 8) (value : Nat) : Statement (.bsBits width value) :=
  of_row ⟨"BS.BITS", 0x800#12, 0xF00#12⟩ (by decide) rfl (matches_imm8 0x8#4 width _)

theorem bsLen : Statement .bsLen :=
  of_row ⟨"BS.LEN", 0x900#12, 0xFFF#12⟩ (by decide) rfl rfl

theorem bsData (index : Nat) : Statement (.bsData index) :=
  of_row ⟨"BS.DATA", 0xA00#12, 0xFFF#12⟩ (by decide) rfl (show OpcodeRow.matches _ 0xA00#12 = true by decide)

theorem classify : Statement .classify :=
  of_row ⟨"CLASSIFY", 0xB00#12, 0xFFF#12⟩ (by decide) rfl rfl

theorem ccwN (v : Nat) : Statement (.ccwN v) :=
  of_row ⟨"CCW.N", 0xC01#12, 0xFFF#12⟩ (by decide) rfl (show OpcodeRow.matches _ 0xC01#12 = true by decide)

theorem ccwA (v : Nat) : Statement (.ccwA v) :=
  of_row ⟨"CCW.A", 0xC02#12, 0xFFF#12⟩ (by decide) rfl (show OpcodeRow.matches _ 0xC02#12 = true by decide)

theorem ccwB (v : Nat) : Statement (.ccwB v) :=
  of_row ⟨"CCW.B", 0xC04#12, 0xFFF#12⟩ (by decide) rfl (show OpcodeRow.matches _ 0xC04#12 = true by decide)

theorem ccwK (v : Nat) : Statement (.ccwK v) :=
  of_row ⟨"CCW.K", 0xC08#12, 0xFFF#12⟩ (by decide) rfl (show OpcodeRow.matches _ 0xC08#12 = true by decide)

theorem acb (c : Byte) : Statement (.acb c) :=
  of_row ⟨"ACB", 0xD00#12, 0xF00#12⟩ (by decide) rfl (matches_imm8 0xD#4 c _)

theorem encN : Statement .encN :=
  of_row ⟨"ENC.N", 0xE01#12, 0xFFF#12⟩ (by decide) rfl rfl

theorem encA : Statement .encA :=
  of_row ⟨"ENC.A", 0xE02#12, 0xFFF#12⟩ (by decide) rfl rfl

theorem encB : Statement .encB :=
  of_row ⟨"ENC.B", 0xE04#12, 0xFFF#12⟩ (by decide) rfl rfl

theorem encK : Statement .encK :=
  of_row ⟨"ENC.K", 0xE08#12, 0xFFF#12⟩ (by decide) rfl rfl

theorem encodeAuto : Statement .encodeAuto :=
  of_row ⟨"ENCODE.AUTO", 0xF00#12, 0xFFF#12⟩ (by decide) rfl rfl

theorem encodeN : Statement .encodeN :=
  of_row ⟨"ENCODE.N", 0xF01#12, 0xFFF#12⟩ (by decide) rfl rfl

theorem encodeA : Statement .encodeA :=
  of_row ⟨"ENCODE.A", 0xF02#12, 0xFFF#12⟩ (by decide) rfl rfl

theorem encodeB : Statement .encodeB :=
  of_row ⟨"ENCODE.B", 0xF04#12, 0xFFF#12⟩ (by decide) rfl rfl

theorem encodeK : Statement .encodeK :=
  of_row ⟨"ENCODE.K", 0xF08#12, 0xFFF#12⟩ (by decide) rfl rfl

end Sys2Proof.Laws.HeaderInTable
end

