-- ==== Sys2Proof/Tests/Slice0.lean ====
section
/-! SUPPORT. The model's own tests, each named: ill-formed terms, words written out from R86, the vectors of
spec/95_test_vectors.md (V<n>) one command at a time, and for each obligation with hypotheses a state and operands that meet them, at the
ends of their ranges. -/

namespace Sys2Proof.Tests

open Sys2Proof Sys2Proof.Machine

/-! ### Small states -/

/-- The reset state of an instance with words of W bits (R6). -/
def fresh (W : Nat) : State := { State.reset with params := { W := W, NW := 2048, PMAX := 8192 } }

/-- The smallest instance: one 16-bit word, one byte. -/
def tiny : State := { State.reset with params := { W := 16, NW := 1, PMAX := 1 } }

/-- A state with a payload. -/
def loaded (s : State) (p : List Nat) : State :=
  { s with plen := p.length, pbuf := (List.range p.length).zip (p.map (BitVec.ofNat 8)) }

/-- A state with a version. -/
def atVersion (s : State) (v : Nat) : State := { s with version := BitVec.ofNat 6 v }

/-- A state with a stream of given words. -/
def holding (s : State) (blen : Nat) (ws : List Nat) : State :=
  { s with stream := { blen := blen, bw := (List.range ws.length).zip ws } }

/-- A state in fault. -/
def faulted (s : State) (f : BitVec 3) : State := { s with fault := f }

/-- The state after an answer; the reset state where there is none. -/
def after : Result → State
  | .next t => t
  | _ => State.reset

/-- The response of an answer, as numbers. -/
def resp (r : Result) : Option (Nat × Nat) := (after r).rsp.map fun x => (x.f.toNat, x.d)

/-- The stream of an answer: BLEN and the words. -/
def words (r : Result) : Nat × List Nat := ((after r).stream.blen, (after r).stream.bw.map Prod.snd)

/-- `"HELLO WORLD"` in ASCII. -/
def helloWorld : List Nat := [0x48, 0x45, 0x4C, 0x4C, 0x4F, 0x20, 0x57, 0x4F, 0x52, 0x4C, 0x44]

/-- The end state of P1: the HELLO WORLD segment at version 1, ECL 2. -/
def finished : State :=
  { holding (atVersion (loaded State.reset helloWorld) 1) 74 [0x205B0B78D172DC4D, 0x4340000000000000] with
    ecl := 2
    mode := 0b0010
    segv := true }

/-- The 16-bit stream of V44b: 23 bits in two words. -/
def straddled : State := holding (fresh 16) 23 [0xFFFB, 0x4A00]

/-- The smallest instance with its only word full. -/
def full : State := holding tiny 16 [0xBEEF]

/-! ### WellFormed refuses an operand that does not fit the W wires of A (R84) -/

theorem test_wf_setver : (Instr.setver (2 ^ 64)).wf Config.given = false ∧ (Instr.setver (2 ^ 64 - 1)).wf Config.given = true := by
  decide

theorem test_wf_bsBits : (Instr.bsBits 1 (2 ^ 64)).wf Config.given = false ∧ (Instr.bsBits 1 (2 ^ 64 - 1)).wf Config.given = true := by
  decide

theorem test_wf_bsData : (Instr.bsData (2 ^ 64)).wf Config.given = false ∧ (Instr.bsData (2 ^ 64 - 1)).wf Config.given = true := by
  decide

theorem test_wf_ccw : (Instr.ccwN (2 ^ 64)).wf Config.given = false ∧ (Instr.ccwA (2 ^ 64)).wf Config.given = false ∧
    (Instr.ccwB (2 ^ 64)).wf Config.given = false ∧ (Instr.ccwK (2 ^ 64)).wf Config.given = false := by
  decide

theorem test_wf_follows_width : (Instr.setver 65536).wf (fresh 16).params = false ∧ (Instr.setver 65536).wf (fresh 32).params = true := by
  decide

/-! ### Decoding: every constructor's word, written out from R86 -/

/-- The command a header and an operand stand for. -/
def read (h : BitVec 12) (a : Nat) : Option Instr := (decode Config.given { ch := h, a := a }).toOption

theorem test_decode_host_access : read 0b000000000000#12 0 = some .init ∧ read 0b000100000000#12 0 = some .rdstat ∧
    read 0b001000000000#12 40 = some (.setver 40) ∧ read 0b001100000010#12 0 = some (.setecl 2) ∧
    read 0b010000000000#12 0 = some .plClr ∧ read 0b010101001000#12 0 = some (.plPush 0x48) := by
  decide

theorem test_decode_bitstream : read 0b011000000000#12 0 = some .bsNew ∧ read 0b011100000001#12 0 = some (.bsBit 1) ∧
    read 0b100000001001#12 11 = some (.bsBits 9 11) ∧ read 0b100100000000#12 0 = some .bsLen ∧
    read 0b101000000000#12 1 = some (.bsData 1) := by
  decide

theorem test_decode_lookups : read 0b101100000000#12 0 = some .classify ∧ read 0b110000000001#12 5 = some (.ccwN 5) ∧
    read 0b110000000010#12 5 = some (.ccwA 5) ∧ read 0b110000000100#12 5 = some (.ccwB 5) ∧
    read 0b110000001000#12 5 = some (.ccwK 5) ∧ read 0b110101011010#12 0 = some (.acb 0x5A) := by
  decide

theorem test_decode_enc : read 0b111000000001#12 0 = some .encN ∧ read 0b111000000010#12 0 = some .encA ∧
    read 0b111000000100#12 0 = some .encB ∧ read 0b111000001000#12 0 = some .encK := by
  decide

theorem test_decode_encode : read 0b111100000000#12 0 = some .encodeAuto ∧ read 0b111100000001#12 0 = some .encodeN ∧
    read 0b111100000010#12 0 = some .encodeA ∧ read 0b111100000100#12 0 = some .encodeB ∧
    read 0b111100001000#12 0 = some .encodeK := by
  decide

/-- V120: the illegal headers it lists. -/
theorem test_decode_illegal : (([0x001, 0x101, 0x201, 0x304, 0x401, 0x601, 0x702, 0x9FF, 0xA01, 0xB01, 0xC00, 0xC03, 0xC10, 0xE00, 0xE03, 0xF03,
    0xF0C, 0xF10] : List (BitVec 12)).all fun h => (read h 0).isNone) = true := by
  decide

/-- V130: an ignored operand has no effect. -/
theorem test_decode_ignores_operand : read 0x900#12 0xDEADBEEF = some .bsLen := by decide

/-- The host's numbering: SETECL 2 and the low operand bits of SETVER above the header. -/
theorem test_decodeTableWord : decodeTableWord 12 0x302 = some (.setecl 2) ∧ decodeTableWord 16 0x5200 = some (.setver 5) := by decide

theorem test_withFetchWord_runs : resp (step (State.reset.withFetchWord 12 0x548)) = some (0, 1) ∧
    after (step (State.reset.withFetchWord 12 0x548)) = after (exec (.plPush 0x48) State.reset) := by decide

/-! ### Host access -/

/-- V119 -/
theorem test_init : resp (exec .init finished) = some (0, 0) ∧ AtReset (after (exec .init (faulted finished 3))) := by decide

/-- V111 and V129 -/
theorem test_rdstat : resp (exec .rdstat finished) = some (0, 0x8128) ∧
    resp (exec .rdstat (faulted { finished with ecl := 0, segv := false } 6)) = some (6, 0x0126) := by decide

/-- V113 and V114 -/
theorem test_setver : (after (exec (.setver 1) finished)).segv = false ∧ statusWord (after (exec (.setver 40) State.reset)) = 0x2800 := by
  decide

/-- V115 -/
theorem test_setver_range : resp (exec (.setver 0) State.reset) = some (6, 0) ∧ resp (exec (.setver 41) State.reset) = some (6, 0) ∧
    (after (exec (.setver 0x100000001) State.reset)).version = 0 := by decide

/-- V112 -/
theorem test_setecl : resp (exec (.setecl 3) finished) = some (0, 0) ∧ statusWord (after (exec (.setecl 3) finished)) = 0xC128 := by decide

/-- V39: PL.CLR clears SEGV, MODE stays. -/
theorem test_plClr : (after (exec .plClr finished)).plen = 0 ∧ (after (exec .plClr finished)).segv = false ∧
    (after (exec .plClr finished)).mode = 0b0010 := by decide

/-- V116 -/
theorem test_plPush : resp (exec (.plPush 0x48) State.reset) = some (0, 1) ∧ (after (exec (.plPush 0x48) State.reset)).pbuf = [(0, 0x48)] := by
  decide

/-- V117, on a buffer of one byte. -/
theorem test_plPush_full : resp (exec (.plPush 0x61) (loaded tiny [0x61])) = some (5, 0) ∧
    (after (exec (.plPush 0x61) (loaded tiny [0x61]))).plen = 1 := by decide

/-! ### BitStream -/

/-- V53 -/
theorem test_bsNew : resp (exec .bsNew straddled) = some (0, 0) ∧ words (exec .bsNew straddled) = (0, []) := by decide

/-- V42, third command. -/
theorem test_bsBit : resp (exec (.bsBit 1) (holding State.reset 2 [0x8000000000000000])) = some (0, 3) ∧
    words (exec (.bsBit 1) (holding State.reset 2 [0x8000000000000000])) = (3, [0xA000000000000000]) := by decide

/-- V49, and V55 on a full instance of one word. -/
theorem test_bsBit_grows : words (exec (.bsBit 0) (holding State.reset 64 [0x0123456789ABCDEF])) = (65, [0x0123456789ABCDEF, 0]) ∧
    resp (exec (.bsBit 0) full) = some (4, 0) := by decide

/-- V44b and V44. -/
theorem test_bsBits_straddles : words (exec (.bsBits 11 0x5A5) (holding (fresh 16) 12 [0xFFF0])) = (23, [0xFFFB, 0x4A00]) ∧
    words (exec (.bsBits 11 0x5A5) (holding State.reset 60 [0xFFFFFFFFFFFFFFF0])) = (71, [0xFFFFFFFFFFFFFFFB, 0x4A00000000000000]) := by
  decide

/-- V45, V47, V52 and V57. -/
theorem test_bsBits_corners : words (exec (.bsBits 4 0xABCD) State.reset) = (4, [0xD000000000000000]) ∧
    words (exec (.bsBits 0 0xFFFF) State.reset) = (0, []) ∧ resp (exec (.bsBits 17 1) (fresh 16)) = some (6, 0) ∧
    resp (exec (.bsBits 200 0) full) = some (6, 0) := by decide

/-- V40, V53 -/
theorem test_bsLen : resp (exec .bsLen State.reset) = some (0, 0) ∧ resp (exec .bsLen straddled) = some (0, 23) := by decide

/-- V48 and P1. -/
theorem test_bsData : resp (exec (.bsData 1) finished) = some (0, 0x4340000000000000) ∧ resp (exec (.bsData 2) finished) = some (6, 0) := by
  decide

/-! ### Look-ups and the classifier -/

/-- V60 to V65 -/
theorem test_classify : (([([], 1), ([0x30], 1), ([0x31, 0x32, 0x41], 2), (helloWorld, 2), ([0x20], 2), ([0x31, 0x2C, 0x32], 4), ([0x41, 0x21], 4),
    ([0x40], 4), ([0x5B], 4), ([0x60], 4), ([0x3B], 4), ([0x61], 4), ([0x00], 4), ([0x31, 0x32, 0x33, 0x80], 4)] : List (List Nat × Nat)).all
    fun e => resp (exec .classify (loaded State.reset e.1)) == some (0, e.2)) = true := by decide

/-- V66 and R30: CLASSIFY writes MODE and clears SEGV. -/
theorem test_classify_writes : (after (exec .classify finished)).mode = 0b0010 ∧ (after (exec .classify finished)).segv = false := by decide

/-- The responses of a look-up at the ends of the tiers. -/
def tiers (i : Nat → Instr) : List (Option (Nat × Nat)) := [1, 9, 10, 26, 27, 40].map fun v => resp (exec (i v) State.reset)

/-- V70 -/
theorem test_ccwN : tiers .ccwN = [some (0, 10), some (0, 10), some (0, 12), some (0, 12), some (0, 14), some (0, 14)] := by decide

/-- V71 -/
theorem test_ccwA : tiers .ccwA = [some (0, 9), some (0, 9), some (0, 11), some (0, 11), some (0, 13), some (0, 13)] := by decide

/-- V72 -/
theorem test_ccwB : tiers .ccwB = [some (0, 8), some (0, 8), some (0, 16), some (0, 16), some (0, 16), some (0, 16)] := by decide

/-- V73 -/
theorem test_ccwK : tiers .ccwK = [some (0, 8), some (0, 8), some (0, 10), some (0, 10), some (0, 12), some (0, 12)] := by decide

/-- V74 -/
theorem test_ccw_range : resp (exec (.ccwN 0) State.reset) = some (6, 0) ∧ resp (exec (.ccwK 41) State.reset) = some (6, 0) ∧
    resp (exec (.ccwA 0x100000001) State.reset) = some (6, 0) := by decide

/-- V80 and V81 -/
theorem test_acb : (([(0x30, 0), (0x39, 9), (0x41, 10), (0x45, 14), (0x48, 17), (0x5A, 35), (0x20, 36), (0x24, 37), (0x25, 38), (0x2A, 39), (0x2B, 40),
    (0x2D, 41), (0x2E, 42), (0x2F, 43), (0x3A, 44)] : List (Nat × Nat)).all
    fun e => resp (exec (.acb (BitVec.ofNat 8 e.1)) State.reset) == some (0, e.2)) = true := by decide

/-- V82 -/
theorem test_acb_violation : (([0x61, 0x21, 0x00, 0x1F, 0x23, 0x26, 0x2C, 0x3B, 0x40, 0x5B, 0x80, 0xFF] : List Nat).all
    fun c => resp (exec (.acb (BitVec.ofNat 8 c)) State.reset) == some (3, 0)) = true := by decide

/-! ### SegmentEncoder -/

/-- V94 and V105 -/
theorem test_encN : words (exec .encN (loaded State.reset [0x31, 0x30, 0x30, 0x30])) = (14, [0x1900000000000000]) ∧
    words (exec .encN (loaded (holding State.reset 3 [0xA000000000000000]) [0x31, 0x30, 0x30, 0x30])) = (17, [0xA320000000000000]) := by decide

/-- V95, V96, V108 -/
theorem test_encN_groups : words (exec .encN (loaded State.reset [0x30, 0x39])) = (7, [0x1200000000000000]) ∧
    words (exec .encN (loaded State.reset [0x39, 0x39, 0x39, 0x39, 0x39, 0x39, 0x39])) = (24, [0xF9FE790000000000]) ∧
    resp (exec .encN (loaded State.reset [0x31, 0x32, 0x41])) = some (2, 0) := by decide

/-- V98 (17 * 45 + 14 = 779, not the 834 that V14 forbids) and V102. -/
theorem test_encA : words (exec .encA (loaded State.reset [0x48, 0x45])) = (11, [0x6160000000000000]) ∧
    words (exec .encA (loaded State.reset helloWorld)) = (61, [0x616F1A2E5B89A868]) := by decide

/-- V99, V101, V108 -/
theorem test_encA_pairs : words (exec .encA (loaded State.reset [0x30, 0x41])) = (11, [0x0140000000000000]) ∧
    words (exec .encA (loaded State.reset [0x2F, 0x3A])) = (11, [0xF760000000000000]) ∧
    resp (exec .encA (loaded State.reset [0x41, 0x2C, 0x42])) = some (3, 0) := by decide

/-- V104 and V106 -/
theorem test_encB : words (exec .encB (loaded State.reset [0x00, 0xFF])) = (16, [0x00FF000000000000]) ∧
    words (exec .encB (loaded (holding State.reset 60 [0xFFFFFFFFFFFFFFF0]) [0x48, 0x69])) = (76, [0xFFFFFFFFFFFFFFF4, 0x8690000000000000]) := by
  decide

/-- V107 -/
theorem test_encK : resp (exec .encK straddled) = some (1, 0) ∧ (after (exec .encK straddled)).stream = straddled.stream := by decide

/-! ### Orchestrator -/

/-- V20 at W = 64 and W = 16. -/
theorem test_encodeAuto : words (exec .encodeAuto (atVersion (loaded State.reset helloWorld) 1)) = (74, [0x205B0B78D172DC4D, 0x4340000000000000]) ∧
    words (exec .encodeAuto (atVersion (loaded (fresh 16) helloWorld) 1)) = (74, [0x205B, 0x0B78, 0xD172, 0xDC4D, 0x4340]) := by decide

/-- V24, V25, V39d -/
theorem test_encodeAuto_modes : words (exec .encodeAuto (atVersion State.reset 1)) = (14, [0x1000000000000000]) ∧
    words (exec .encodeAuto (atVersion (loaded State.reset [0x48, 0x69, 0x21]) 10)) = (44, [0x4000348692100000]) ∧
    resp (exec .encodeAuto State.reset) = some (6, 0) := by decide

/-- V28 (the digits named) and V39c. -/
theorem test_encodeN : words (exec .encodeN (atVersion (loaded State.reset [0x31, 0x30, 0x30, 0x30]) 27)) = (32, [0x1001064000000000]) ∧
    resp (exec .encodeN (atVersion (loaded State.reset [0x31, 0x32, 0x41]) 5)) = some (2, 0) := by decide

/-- V29 and V39c. -/
theorem test_encodeA : words (exec .encodeA (atVersion (loaded State.reset [0x31, 0x32, 0x33]) 1)) = (30, [0x20182F0C00000000]) ∧
    resp (exec .encodeA (atVersion (loaded State.reset [0x48, 0x65]) 1)) = some (3, 0) := by decide

/-- V30 and V34. -/
theorem test_encodeB : words (exec .encodeB (atVersion (loaded State.reset [0x31, 0x32]) 9)) = (28, [0x4023132000000000]) ∧
    words (exec .encodeB (atVersion State.reset 1)) = (12, [0x4000000000000000]) := by decide

/-- V124 and V39b. -/
theorem test_encodeK : resp (exec .encodeK State.reset) = some (1, 0) ∧ words (exec .encodeK finished) = words (.next finished) := by decide

/-- The whole segment state of P1. -/
theorem test_encodeAuto_state : after (exec .encodeAuto { finished with stream := emptyStream, mode := 0, segv := false }) =
    { finished with rsp := some { f := 0, d := 74 } } := by decide

/-! ### Steps -/

/-- V122: an illegal header in fault state is refused; V120: it faults in a normal state. -/
theorem test_step_illegal : resp (step { faulted State.reset 1 with queue := [.command { ch := 0x001, a := 0 }] }) = some (1, 0) ∧
    resp (step { State.reset with queue := [.command { ch := 0xF03, a := 0 }] }) = some (7, 0) := by decide

/-- R262: a reset instead of the completion of a command. -/
theorem test_step_reset : AtReset (after (step { faulted finished 2 with queue := [.reset (some { ch := 0xF00, a := 0 })] })) := by decide

/-! ### Witnesses: hypotheses met together, at the ends of their ranges

Each theorem names an obligation and gives, for each of its clauses that has hypotheses, states and operands that meet them. -/

/-- The stream of `straddled`, as bits: 23 of them. -/
def straddledBits : Bits := bin 16 0xFFFB ++ bin 7 0x25

/-- One bit short of full. -/
def nearlyFull : State := holding tiny 15 [0xBEEE]

theorem straddled_inv : straddled.Inv :=
  ⟨by decide, by decide, by decide, by decide, by decide, by decide, by decide, by decide⟩

theorem finished_inv : finished.Inv :=
  ⟨by decide, by decide, by decide, by decide, by decide, by decide, by decide, by decide⟩

theorem reset_inv_witness : State.reset.Inv :=
  ⟨by decide, by decide, by decide, by decide, by decide, by decide, by decide, by decide⟩

theorem witness_HardwareResetGivesResetState : ({ finished with queue := [.reset none] } : State).queue = .reset none :: [] ∧
    ({ finished with queue := [.reset (some { ch := 0xF00, a := 0 })] } : State).queue = .reset (some { ch := 0xF00, a := 0 }) :: [] := by
  decide

theorem witness_InitRestoresResetState : 0x001 ≤ (0x001#12).toNat ∧ (0x001#12).toNat ≤ 0x0FF ∧ 0x001 ≤ (0x0FF#12).toNat ∧
    (0x0FF#12).toNat ≤ 0x0FF ∧ (faulted finished 3).fault ≠ 0 ∧ Instr.plClr ≠ .init ∧
    exec .plClr (faulted finished 3) = .next (after (exec .plClr (faulted finished 3))) :=
  ⟨by decide, by decide, by decide, by decide, by decide, by decide, rfl⟩

theorem witness_RdstatReturnsStatusWord : 0x101 ≤ (0x101#12).toNat ∧ (0x101#12).toNat ≤ 0x1FF ∧ 0x101 ≤ (0x1FF#12).toNat ∧
    (0x1FF#12).toNat ≤ 0x1FF ∧ exec .rdstat (faulted State.reset 1) = .next (after (exec .rdstat (faulted State.reset 1))) ∧
    (after (exec .rdstat (faulted State.reset 1))).rsp = some { f := 1, d := 1 } ∧ (1 : BitVec 3) ≠ 0 ∧ (1 : Nat) ≠ 0 :=
  ⟨by decide, by decide, by decide, by decide, rfl, by decide, by decide, by decide⟩

theorem witness_SetverWritesVersionInRange : 2 ^ 64 - 1 < 2 ^ Config.given.W ∧ State.reset.fault = 0 ∧ (1 ≤ 1 ∧ 1 ≤ 40) ∧ (1 ≤ 40 ∧ 40 ≤ 40) ∧
    ¬ (1 ≤ 0 ∧ 0 ≤ 40) ∧ ¬ (1 ≤ 41 ∧ 41 ≤ 40) ∧ finished.version ≠ 0 ∧ (after (exec .init finished)).version = 0 := by decide

theorem witness_SeteclWritesLevelOnly : finished.fault = 0 ∧ finished.segv = true := by decide

theorem witness_PlClrEmptiesPayload : finished.fault = 0 ∧ finished.plen = 11 := by decide

theorem witness_PlPushAppendsOneByte : tiny.fault = 0 ∧ tiny.plen ≠ tiny.params.PMAX ∧ (loaded tiny [0x61]).fault = 0 ∧
    (loaded tiny [0x61]).plen = (loaded tiny [0x61]).params.PMAX := by decide

theorem witness_BsNewEmptiesStream : straddled.fault = 0 ∧ straddled.stream.blen = 23 := by decide

theorem witness_BsBitAppendsOneBit : nearlyFull.fault = 0 ∧ 0 < nearlyFull.params.W ∧ StreamWf nearlyFull.params.W nearlyFull.stream ∧
    streamBits nearlyFull.params.W nearlyFull.stream = some (bin 15 0x5F77) ∧ nearlyFull.stream.blen + 1 ≤ nearlyFull.params.maxBits ∧
    full.fault = 0 ∧ full.params.maxBits < full.stream.blen + 1 := by decide

/-- Widths 0, 1 and W on a well-formed stream; W + 1; a packet one bit too long. -/
theorem witness_BsBitsAppendsLowBits : 0xFFFF < 2 ^ straddled.params.W ∧ straddled.fault = 0 ∧ 0 < straddled.params.W ∧
    StreamWf straddled.params.W straddled.stream ∧ streamBits straddled.params.W straddled.stream = some straddledBits ∧
    (0#8).toNat ≤ straddled.params.W ∧ (16#8).toNat ≤ straddled.params.W ∧ straddled.stream.blen + (16#8).toNat ≤ straddled.params.maxBits ∧
    straddled.params.W < (17#8).toNat ∧ StreamWf nearlyFull.params.W nearlyFull.stream ∧ (1#8).toNat ≤ nearlyFull.params.W ∧
    nearlyFull.stream.blen + (1#8).toNat ≤ nearlyFull.params.maxBits ∧ nearlyFull.params.maxBits < nearlyFull.stream.blen + (2#8).toNat := by
  decide

theorem witness_BsLenReturnsLength : straddled.fault = 0 := by decide

/-- The last word, and the first index past it. -/
theorem witness_BsDataReturnsWordOrFaults : 0xFFFF < 2 ^ straddled.params.W ∧ straddled.fault = 0 ∧ 0 < straddled.params.W ∧
    StreamWf straddled.params.W straddled.stream ∧ streamBits straddled.params.W straddled.stream = some straddledBits ∧
    1 < ceilDiv straddled.stream.blen straddled.params.W ∧ ceilDiv straddled.stream.blen straddled.params.W ≤ 2 := by decide

/-- The last bit of the stream and the last bit of its last word. -/
theorem witness_PackedViewReadsBackBits : straddled.Inv ∧ straddled.fault = 0 ∧
    streamBits straddled.params.W straddled.stream = some straddledBits ∧
    22 < ceilDiv straddledBits.length straddled.params.W * straddled.params.W ∧
    31 < ceilDiv straddledBits.length straddled.params.W * straddled.params.W :=
  ⟨straddled_inv, by decide, by decide, by decide, by decide⟩

/-- V46: widths 3, 7, 0, 10, 1, and one of W bits. -/
theorem witness_ReadBackLawOfAppends : 0 < 16 ∧
    (∀ p ∈ ([⟨5, 3⟩, ⟨0x2A, 7⟩, ⟨9, 0⟩, ⟨0x7FF, 10⟩, ⟨1, 1⟩, ⟨0xBEEF, 16⟩] : List Packet), p.width ≤ 16) ∧
    ([⟨5, 3⟩, ⟨0x2A, 7⟩, ⟨9, 0⟩, ⟨0x7FF, 10⟩, ⟨1, 1⟩, ⟨0xBEEF, 16⟩] : List Packet)[5]? = some ⟨0xBEEF, 16⟩ := by decide

/-- A width of 0, one that fits the last word, one that straddles, a full word. -/
theorem witness_WordwiseAppendEqualsBitwise : 0 < 16 ∧ 0 ≤ 16 ∧ 9 ≤ 16 ∧ 10 ≤ 16 ∧ 16 ≤ 16 ∧ StreamWf 16 straddled.stream ∧
    StreamWf 16 full.stream := by decide

theorem witness_BsBitsEqualsRepeatedBsBit : straddled.fault = 0 ∧ 0 < straddled.params.W ∧ StreamWf straddled.params.W straddled.stream ∧
    (11#8).toNat ≤ straddled.params.W ∧ straddled.stream.blen + (11#8).toNat ≤ straddled.params.maxBits := by decide

theorem witness_StreamsAndBitStringsCorrespond : 0 < 16 ∧ StreamWf 16 straddled.stream ∧ streamBits 16 straddled.stream = some straddledBits ∧
    StreamWf 16 emptyStream := by decide

theorem witness_OnlyEmptyingCommandsLoseBits : 0 < straddled.params.W ∧ StreamWf straddled.params.W straddled.stream ∧
    streamBits straddled.params.W straddled.stream = some straddledBits ∧ exec (.bsBit 1) straddled = .next (after (exec (.bsBit 1) straddled)) ∧
    Instr.bsBit 1 ≠ .init ∧ Instr.bsBit 1 ≠ .bsNew ∧ isEncode (.bsBit 1) = false :=
  ⟨by decide, by decide, by decide, rfl, by decide, by decide, by decide⟩

/-- The last codeword of the first word. -/
theorem witness_CodewordsAreBigEndianBytes : straddled.Inv ∧ streamBits straddled.params.W straddled.stream = some straddledBits ∧
    8 * 1 + 8 ≤ straddledBits.length ∧ straddled.stream.bw.read (1 / (straddled.params.W / 8)) = some 0xFFFB :=
  ⟨straddled_inv, by decide, by decide, by decide⟩

theorem witness_CcwReturnsTableWidth : 2 ^ 64 - 1 < 2 ^ Config.given.W ∧ State.reset.fault = 0 ∧
    (∀ v ∈ [1, 9, 10, 26, 27, 40], 1 ≤ v ∧ v ≤ 40) ∧ ∀ v ∈ [0, 41], ¬ (1 ≤ v ∧ v ≤ 40) := by decide

theorem witness_AcbReturnsCodebookValue : State.reset.fault = 0 ∧ codebookAt 0x20 = some 36 ∧ codebookAt 0x5A = some 35 ∧
    codebookAt 0x1F = none ∧ codebookAt 0x5B = none ∧ codebookAt 0xFF = none := by decide

theorem witness_CodebookMatchesItsAddressTable : acbRom 0x3A = some 44 ∧ acbRom 0x30 = some 0 := by decide

/-- The empty payload, digits, the alphabet, one byte outside it. -/
theorem witness_ClassifySelectsNarrowestMode : State.reset.fault = 0 ∧ State.reset.payload = some [] ∧
    (∀ c ∈ ([] : List Byte), inNumericSet c = true) ∧
    (loaded State.reset [0x30, 0x39]).payload = some [0x30, 0x39] ∧ (∀ c ∈ ([0x30, 0x39] : List Byte), inNumericSet c = true) ∧
    (loaded State.reset [0x30, 0x3A]).payload = some [0x30, 0x3A] ∧ (∃ c ∈ ([0x30, 0x3A] : List Byte), inNumericSet c = false) ∧
    (∀ c ∈ ([0x30, 0x3A] : List Byte), inAlphanumericSet c = true) ∧
    (loaded State.reset [0x30, 0x3B]).payload = some [0x30, 0x3B] ∧ ∃ c ∈ ([0x30, 0x3B] : List Byte), inAlphanumericSet c = false := by
  decide

theorem witness_ClassifierGuaranteesAlphabet : finished.fault = 0 ∧ exec .encodeAuto finished = .next (after (exec .encodeAuto finished)) :=
  ⟨by decide, rfl⟩

theorem witness_PacketsFollowTheIndexRules : meetsAlphabet .numeric [0x30, 0x39, 0x31, 0x32, 0x33] = true ∧
    meetsAlphabet .alphanumeric [0x48, 0x45, 0x3A] = true ∧ meetsAlphabet .byteText [0xFF] = true ∧ meetsAlphabet .numeric [0x30, 0x3A] = false ∧
    meetsAlphabet .alphanumeric [0x3A, 0x3B] = false := by decide

theorem witness_PacketCountsAndWidths : packetsOf .numeric [] = .ok [] ∧ packetsOf .numeric [0x39] = .ok [⟨9, 4⟩] ∧
    packetsOf .numeric [0x39, 0x39] = .ok [⟨99, 7⟩] ∧ packetsOf .alphanumeric [0x3A, 0x3A, 0x3A] = .ok [⟨2024, 11⟩, ⟨44, 6⟩] ∧
    packetsOf .byteText [0xFF] = .ok [⟨255, 8⟩] := by decide

/-- A payload that exactly fits, and one bit too little room. -/
theorem witness_EncNumericAppendsPayloadPackets : (∀ s ∈ [loaded (holding tiny 12 [0xBEE0]) [0x37], loaded (holding tiny 13 [0xBEE0]) [0x37]],
      s.fault = 0 ∧ 0 < s.params.W ∧ StreamWf s.params.W s.stream ∧ s.payload = some [0x37] ∧ (streamBits s.params.W s.stream).isSome) ∧
    meetsAlphabet .numeric [0x37] = true ∧ 12 + ruleBits .numeric 1 ≤ tiny.params.maxBits ∧ tiny.params.maxBits < 13 + ruleBits .numeric 1 ∧
    (loaded tiny [0x3A]).fault = 0 ∧ (loaded tiny [0x3A]).payload = some [0x3A] ∧ meetsAlphabet .numeric [0x3A] = false := by decide

theorem witness_EncAlphanumericAppendsPayloadPackets : (∀ s ∈ [loaded (holding tiny 10 [0xBEC0]) [0x3A], loaded (holding tiny 11 [0xBEC0]) [0x3A]],
      s.fault = 0 ∧ 0 < s.params.W ∧ StreamWf s.params.W s.stream ∧ s.payload = some [0x3A] ∧ (streamBits s.params.W s.stream).isSome) ∧
    meetsAlphabet .alphanumeric [0x3A] = true ∧ 10 + ruleBits .alphanumeric 1 ≤ tiny.params.maxBits ∧
    tiny.params.maxBits < 11 + ruleBits .alphanumeric 1 ∧
    (loaded tiny [0x3B]).fault = 0 ∧ (loaded tiny [0x3B]).payload = some [0x3B] ∧ meetsAlphabet .alphanumeric [0x3B] = false := by decide

theorem witness_EncByteAppendsPayloadPackets : (∀ s ∈ [loaded (holding tiny 8 [0xBE00]) [0xFF], loaded (holding tiny 9 [0xBE00]) [0xFF]],
      s.fault = 0 ∧ 0 < s.params.W ∧ StreamWf s.params.W s.stream ∧ s.payload = some [0xFF] ∧ (streamBits s.params.W s.stream).isSome) ∧
    meetsAlphabet .byteText [0xFF] = true ∧ 8 + ruleBits .byteText 1 ≤ tiny.params.maxBits ∧ tiny.params.maxBits < 9 + ruleBits .byteText 1 := by
  decide

theorem witness_KanjiAlwaysUnsupported : State.reset.fault = 0 ∧ finished.fault = 0 := by decide

/-- No version; a segment that fits (14 bits in 16); one that does not (18 bits in 16). -/
theorem witness_EncodeAutoMakesSegment : State.reset.fault = 0 ∧ State.reset.version = 0 ∧ (atVersion tiny 1).fault = 0 ∧
    (atVersion tiny 1).version ≠ 0 ∧ 0 < (atVersion tiny 1).params.W ∧ (atVersion tiny 1).payload = some [] ∧
    meetsAlphabet (narrowestMode []) [] = true ∧ segmentLength (narrowestMode []) 1 0 ≤ tiny.params.maxBits ∧
    (atVersion (loaded tiny [0x30]) 1).payload = some [0x30] ∧ meetsAlphabet (narrowestMode [0x30]) [0x30] = true ∧
    tiny.params.maxBits < segmentLength (narrowestMode [0x30]) 1 1 := by decide

theorem witness_EncodeNamedMakesSegment : (atVersion tiny 9).fault = 0 ∧ (atVersion tiny 9).version ≠ 0 ∧ 0 < (atVersion tiny 9).params.W ∧
    (atVersion tiny 9).payload = some [] ∧ meetsAlphabet .numeric [] = true ∧ meetsAlphabet .alphanumeric [] = true ∧
    meetsAlphabet .byteText [] = true ∧ segmentLength .numeric 9 0 ≤ tiny.params.maxBits ∧ segmentLength .alphanumeric 9 0 ≤ tiny.params.maxBits ∧
    segmentLength .byteText 9 0 ≤ tiny.params.maxBits ∧ (atVersion (loaded tiny [0x30]) 9).payload = some [0x30] ∧
    tiny.params.maxBits < segmentLength .numeric 9 1 ∧ tiny.params.maxBits < segmentLength .alphanumeric 9 1 ∧
    tiny.params.maxBits < segmentLength .byteText 9 1 ∧ (atVersion (loaded tiny [0x3B]) 9).payload = some [0x3B] ∧
    meetsAlphabet .numeric [0x3B] = false ∧ meetsAlphabet .alphanumeric [0x3B] = false ∧ tiny.fault = 0 ∧ tiny.version = 0 := by decide

/-- Well-formed states of version 1 and of version 40, for the three modes. -/
def digitAtVersion (v : Nat) : State := atVersion (loaded (fresh 16) [0x30]) v

theorem digitAtVersion_inv : (digitAtVersion 1).Inv ∧ (digitAtVersion 40).Inv :=
  ⟨⟨by decide, by decide, by decide, by decide, by decide, by decide, by decide, by decide⟩,
   ⟨by decide, by decide, by decide, by decide, by decide, by decide, by decide, by decide⟩⟩

theorem witness_SegmentEqualsHandBuiltStream : (digitAtVersion 1).Inv ∧ (digitAtVersion 40).Inv ∧ (∀ v ∈ [1, 40],
      (digitAtVersion v).fault = 0 ∧ (digitAtVersion v).version ≠ 0 ∧ (digitAtVersion v).payload = some [0x30] ∧
      ∀ m ∈ [SegmentMode.numeric, .alphanumeric, .byteText], meetsAlphabet m [0x30] = true ∧
        segmentLength m v 1 ≤ (digitAtVersion v).params.maxBits) :=
  ⟨digitAtVersion_inv.1, digitAtVersion_inv.2, by decide⟩

theorem witness_SegmentDependsOnInputsOnly : isEncode .encodeAuto = true ∧ finished.fault = 0 ∧
    (holding finished 3 [0xA000000000000000]).fault = 0 ∧ finished.params = (holding finished 3 [0xA000000000000000]).params ∧
    exec .encodeAuto finished = .next (after (exec .encodeAuto finished)) ∧
    exec .encodeAuto (holding finished 3 [0xA000000000000000]) = .next (after (exec .encodeAuto (holding finished 3 [0xA000000000000000]))) :=
  ⟨by decide, by decide, by decide, by decide, rfl, rfl⟩

theorem witness_GivenInstanceEncodeFits : isEncode .encodeB = true ∧ finished.params = { W := 64, NW := 2048, PMAX := 8192 } ∧ finished.fault = 0 ∧
    PayloadWf finished ∧ exec .encodeB finished = .next (after (exec .encodeB finished)) ∧ 8192 ≤ 8192 ∧ 10 ≤ 10 :=
  ⟨by decide, by decide, by decide, by decide, rfl, by decide, by decide⟩

theorem witness_CountFieldHoldsLengthModuloWidth : (digitAtVersion 1).Inv ∧ (digitAtVersion 40).Inv ∧ (∀ v ∈ [1, 40],
      (digitAtVersion v).fault = 0 ∧ (digitAtVersion v).version ≠ 0 ∧ (digitAtVersion v).payload = some [0x30] ∧
      ∀ x ∈ [(Instr.encodeN, SegmentMode.numeric), (.encodeA, .alphanumeric), (.encodeB, .byteText)], meetsAlphabet x.2 [0x30] = true ∧
        segmentLength x.2 v 1 ≤ (digitAtVersion v).params.maxBits) :=
  ⟨digitAtVersion_inv.1, digitAtVersion_inv.2, by decide⟩

/-- The tiers end at 9 and 26 (V21 and V22); the lengths 12 (V34) and 14 (V24). -/
theorem witness_SegmentLengthsAndShortestSegment : isEncode .encodeAuto = true ∧ finished.Inv ∧ finished.fault = 0 ∧
    exec .encodeAuto finished = .next (after (exec .encodeAuto finished)) ∧ (after (exec .encodeAuto finished)).fault = 0 ∧ 9 ≤ 9 ∧
    ([9, 10, 26, 27].map fun v => (words (exec .encodeAuto (atVersion finished v))).1) = [74, 76, 76, 78] ∧
    (words (exec .encodeB (atVersion State.reset 9))).1 = 12 ∧ (words (exec .encodeAuto (atVersion State.reset 9))).1 = 14 ∧
    (after (exec .encodeB (atVersion State.reset 9))).fault = 0 ∧ (after (exec .encodeAuto (atVersion State.reset 9))).fault = 0 ∧
    (atVersion State.reset 9).Inv :=
  ⟨by decide, finished_inv, by decide, rfl, by decide, by decide, by decide, by decide, by decide, by decide, by decide,
   ⟨by decide, by decide, by decide, by decide, by decide, by decide, by decide, by decide⟩⟩

/-- The shortest and the two end versions. -/
theorem witness_WholeCallProducesSegment : State.reset.Inv ∧ straddled.Inv ∧ State.reset.fault = 0 ∧ straddled.fault = 0 ∧
    (∀ v ∈ [1, 40], 1 ≤ v ∧ v ≤ 40) ∧ ([] : List Byte).length ≤ State.reset.params.PMAX ∧
    segmentLength (narrowestMode []) 1 0 ≤ State.reset.params.maxBits ∧ [0x48#8].length ≤ straddled.params.PMAX ∧
    segmentLength (narrowestMode [0x48#8]) 40 1 ≤ straddled.params.maxBits :=
  ⟨reset_inv_witness, straddled_inv, by decide, by decide, by decide, by decide, by decide, by decide, by decide⟩

theorem witness_FaultsArePrecise : finished.fault = 0 ∧ exec (.bsData 2) finished = .next (after (exec (.bsData 2) finished)) ∧
    (after (exec (.bsData 2) finished)).fault ≠ 0 := ⟨by decide, rfl, by decide⟩

theorem witness_FaultStateRefusesCommands : (faulted State.reset 1).fault ≠ 0 ∧ (faulted State.reset 7).fault ≠ 0 ∧ Instr.plClr ≠ .init ∧
    Instr.plClr ≠ .rdstat ∧
    ({ faulted State.reset 1 with queue := [.command { ch := 0x001, a := 0 }] } : State).queue = .command { ch := 0x001, a := 0 } :: [] ∧
    ∀ r ∈ opcodeRows, r.matches 0x001#12 = false := by decide

theorem witness_IllegalHeaderRaisesIllegalCommand : State.reset.fault = 0 ∧
    ({ State.reset with queue := [.command { ch := 0xF10, a := 0 }] } : State).queue = .command { ch := 0xF10, a := 0 } :: [] ∧
    ({ faulted State.reset 1 with queue := [.command { ch := 0xF10, a := 0 }] } : State).queue = .command { ch := 0xF10, a := 0 } :: [] ∧
    (faulted State.reset 1).fault ≠ 0 ∧ (∀ r ∈ opcodeRows, r.matches 0xF10#12 = false) ∧ decode Config.given { ch := 0xF10, a := 0 } = .error .reservedBits ∧
    decode Config.given { ch := 0xC00, a := 0 } = .error .modeCode := by decide

theorem witness_ChecksComeInPriorityOrder : full.fault = 0 ∧ full.version = 0 ∧ full.params.W < (17#8).toNat ∧
    (loaded full [0x61]).fault = 0 ∧ (loaded full [0x61]).payload = some [0x61] ∧ meetsAlphabet .numeric [0x61] = false ∧
    meetsAlphabet .alphanumeric [0x61] = false := by decide

theorem witness_ResponseCarriesFault : exec (.bsData 2) finished = .next (after (exec (.bsData 2) finished)) ∧
    (after (exec (.bsData 2) finished)).fault ≠ 0 ∧ Instr.bsData 2 ≠ .rdstat := ⟨rfl, by decide, by decide⟩

/-- Every command of a correct host in the finished state: versions 1 and 40, the last word, widths 0 and W. -/
theorem witness_CorrectHostMeetsNoFault : finished.Inv ∧ finished.fault = 0 ∧ finished.params = { W := 64, NW := 2048, PMAX := 8192 } ∧
    ∀ i ∈ [Instr.init, .rdstat, .setver 1, .setver 40, .setecl 3, .plClr, .plPush 0xFF, .bsNew, .bsLen, .bsBit 1, .bsBits 0 1,
        .bsBits 64 1, .bsData 1, .classify, .ccwN 1, .ccwN 40, .ccwA 1, .ccwA 40, .ccwB 1, .ccwB 40, .ccwK 1, .ccwK 40, .encodeAuto],
      correctHostSends finished i = true := ⟨finished_inv, by decide, by decide, by decide⟩

theorem witness_ReadsHaveNoSideEffect : (∀ i ∈ [Instr.rdstat, .bsLen, .bsData 1, .ccwN 1, .ccwA 40, .ccwB 9, .ccwK 27, .acb 0x3A],
      isRead i = true ∧ (after (exec i finished)).fault = 0) ∧ finished.fault = 0 ∧
    exec (.bsData 1) finished = .next (after (exec (.bsData 1) finished)) := ⟨by decide, by decide, rfl⟩

theorem witness_RegistersHaveTheirWritersOnly : exec .encodeA finished = .next (after (exec .encodeA finished)) ∧
    (after (exec (.setver 2) finished)).version ≠ finished.version ∧ (after (exec (.setecl 1) finished)).ecl ≠ finished.ecl ∧
    (after (exec .encodeB finished)).mode ≠ finished.mode ∧ (after (exec (.plPush 1) finished)).plen ≠ finished.plen ∧
    (after (exec .encB finished)).stream ≠ finished.stream ∧ (after (exec .encK finished)).fault ≠ finished.fault :=
  ⟨rfl, by decide⟩

theorem witness_SegvSetByEncodeOnly : exec .encodeA finished = .next (after (exec .encodeA finished)) ∧ finished.fault = 0 ∧
    (after (exec .encodeA finished)).fault = 0 ∧ isEncode .encodeA = true ∧ (after (exec .encK finished)).fault ≠ 0 ∧
    (after (exec .encA finished)).fault = 0 ∧ clearsSegv .encA = true ∧ (after (exec .bsLen finished)).fault = finished.fault ∧
    isRead .bsLen = true ∧ (faulted State.reset 3).fault ≠ 0 ∧ Instr.bsLen ≠ .init := ⟨rfl, by decide⟩

theorem witness_StepRunsDecodedCommand :
    ({ straddled with queue := [.command { ch := 0xA00, a := 1 }] } : State).queue = .command { ch := 0xA00, a := 1 } :: [] ∧
    decode straddled.params { ch := 0xA00, a := 1 } = .ok (.bsData 1) ∧ decode Config.given (tableCommand 12 0xF00) = .ok .encodeAuto ∧
    State.reset.queue = [] := by decide

theorem witness_LegalHeadersAreTheTableRows : decode Config.given { ch := 0x5FF, a := 0 } = .ok (.plPush 0xFF) ∧
    (⟨"PL.PUSH", 0x500#12, 0xF00#12⟩ : OpcodeRow) ∈ opcodeRows ∧ (⟨"PL.PUSH", 0x500#12, 0xF00#12⟩ : OpcodeRow).matches 0x5FF = true := by
  decide

theorem witness_DecodeEncodeRoundTrip : (Instr.bsBits 0xFF (2 ^ 64 - 1)).wf Config.given = true ∧ (Instr.setver 0).wf Config.given = true ∧
    (Instr.setecl 3).wf Config.given = true := by decide

theorem witness_EncodeDecodeRoundTrip : decode Config.given { ch := 0x8FF, a := 2 ^ 64 + 5 } = .ok (.bsBits 0xFF 5) ∧
    usesOperand (.bsBits 0xFF 5) = true ∧ decode Config.given { ch := 0x900, a := 7 } = .ok .bsLen ∧ usesOperand .bsLen = false := by decide

theorem witness_StepKeepsWellFormed : finished.Inv ∧ step finished = .next (after (step finished)) := ⟨finished_inv, rfl⟩

theorem witness_StepAlwaysCompletes : ({ finished with queue := [.command { ch := 0xF00, a := 0 }] } : State).Inv :=
  ⟨by decide, by decide, by decide, by decide, by decide, by decide, by decide, by decide⟩

end Sys2Proof.Tests
end

section
/-! The lengths of Safety.lean (R181, R194) are those the ENCODE commands check against the room (R185), and their bounds; a
command that completes leaves FAULT alone; and with the given parameters no ENCODE command overflows the stream (R8). -/

namespace Sys2Proof.Machine

/-- The count width of R194 is the ROM entry of R141. -/
theorem ruleWidth_eq_ccw (m : SegmentMode) (v : Nat) : ruleWidth m v = ccw (encodingOf m) v := by
  unfold ruleWidth ccw tierOf
  split_ifs <;> cases m <;> rfl

/-- The payload bits of R194 are those of R170. -/
theorem ruleBits_eq_payBits (m : SegmentMode) (L : Nat) : ruleBits m L = payBits m L := by
  cases m with
  | numeric =>
    obtain h | h | h : L % 3 = 0 ∨ L % 3 = 1 ∨ L % 3 = 2 := by omega
    all_goals simp [ruleBits, payBits, numericTail, h]
  | alphanumeric => rfl
  | byteText => rfl

/-- The length ENCODE checks against MAXBITS is `seglen(m, v, L)`. -/
theorem segmentLength_eq (m : SegmentMode) (v L : Nat) : segmentLength m v L = 4 + ccw (encodingOf m) v + payBits m L := by
  rw [segmentLength, ruleWidth_eq_ccw, ruleBits_eq_payBits]

theorem ccw_le (m : EncodingMode) (v : Nat) : ccw m v ≤ 16 := by
  rw [ccw]
  cases m <;> cases tierOf v <;> decide

/-- Byte/Text spends the most bits on each byte. -/
theorem payBits_le (m : SegmentMode) (L : Nat) : payBits m L ≤ 8 * L := by
  cases m with
  | numeric =>
    rw [payBits]
    split_ifs <;> omega
  | alphanumeric => rw [payBits]; omega
  | byteText => exact le_rfl

/-- No segment of L bytes is longer than a Byte/Text segment with a 16-bit count field. -/
theorem segmentLength_le (m : SegmentMode) (v L : Nat) : segmentLength m v L ≤ 20 + 8 * L := by
  rw [segmentLength_eq]
  have := ccw_le (encodingOf m) v
  have := payBits_le m L
  omega

/-- The bound is reached in Byte/Text from version 10 on. -/
theorem segmentLength_byteText {v : Nat} (hv : 10 ≤ v) (L : Nat) : segmentLength .byteText v L = 20 + 8 * L := by
  have hccw : ccw .byteText v = 16 := by
    rw [ccw, tierOf, if_neg (by omega)]
    split <;> rfl
  rw [segmentLength_eq, encodingOf, hccw, payBits]

/-- A command that passes its checks leaves FAULT as it was. -/
theorem Effect.fault_eq {s t : State} {i : Instr} (h : Effect s i t) : t.fault = s.fault := by
  cases h <;> rfl

/-- An alphabet check never finds a lack of room. -/
theorem packetsOf_ne_streamOverflow {m : SegmentMode} {p : List Byte} : packetsOf m p ≠ .error .streamOverflow := by
  intro h
  obtain ⟨-, -, hc⟩ | ⟨-, -, hc⟩ := packetsOf_error h <;> cases hc

/-- ENCODE raises StreamOverflow only when the segment is longer than MAXBITS (R118, R185). -/
theorem Raises.maxBits_lt_of_isEncode {s : State} {i : Instr} (hi : isEncode i = true) (h : Raises s i .streamOverflow) :
    ∃ m, s.params.maxBits < segmentLength m s.version.toNat s.plen := by
  cases h with
  | noRoomBit => cases hi
  | noRoomBits => cases hi
  | encAlphabet ha => cases ha <;> cases hi
  | encNoRoom ha => cases ha <;> cases hi
  | encodeAlphabet _ _ _ hps => exact absurd hps packetsOf_ne_streamOverflow
  | encodeNoRoom _ _ _ _ hroom => exact ⟨_, by rwa [segmentLength_eq]⟩

/-- The code 4 of R221 is StreamOverflow's alone. -/
theorem eq_streamOverflow_of_faultBits {code : FaultCode} (h : faultBits code = 4) : code = .streamOverflow := by
  cases code <;> revert h <;> decide

/-- Where the segment of every mode fits MAXBITS, ENCODE does not enter StreamOverflow from a normal state, whatever the parameters. -/
theorem exec_encode_fault_ne_streamOverflow {s t : State} {i : Instr} (hi : isEncode i = true) (hf : s.fault = 0)
    (hfit : ∀ m, segmentLength m s.version.toNat s.plen ≤ s.params.maxBits) (h : exec i s = .next t) : t.fault ≠ 4 := by
  intro h4
  cases exec_cases h with
  | restored hinit => rw [hinit] at hi; cases hi
  | refused hf' => exact hf' hf
  | raised _ code hr ht =>
    rw [ht, State.raised_fault] at h4
    obtain rfl := eq_streamOverflow_of_faultBits h4
    obtain ⟨m, hm⟩ := hr.maxBits_lt_of_isEncode hi
    exact absurd (hfit m) (by omega)
  | done _ he => rw [he.fault_eq, hf] at h4; exact absurd h4 (by decide)

/-- Settles O35: every segment of at most 8192 bytes has at most 65556 bits, and the parameters give MAXBITS = 131072. -/
theorem givenInstanceEncodeFits : Obligations.GivenInstanceEncodeFits := by
  refine ⟨fun i s t hi hparams hf hpayload h => ?_, fun m v L hL => ?_, fun v hv => segmentLength_byteText hv 8192⟩
  · have hlen : s.plen ≤ 8192 := by simpa [hparams] using hpayload.1
    have hmax : s.params.maxBits = 131072 := by rw [hparams]; rfl
    refine exec_encode_fault_ne_streamOverflow hi hf (fun m => ?_) h
    have := segmentLength_le m s.version.toNat s.plen
    omega
  · have := segmentLength_le m v L
    omega

end Sys2Proof.Machine
end

section
/-! The model never stops on a well-formed stream and payload buffer: one lemma per shared check or template, then every command, then
the step (R9, R197). -/

namespace Sys2Proof.Machine

theorem running_next (t : State) : Running (.next t) := ⟨t, rfl⟩

theorem running_unlessFaulted {s : State} {r : Result} (h : Running r) : Running (unlessFaulted s r) := by
  by_cases hf : s.fault = 0
  · rwa [unlessFaulted_normal hf]
  · rw [unlessFaulted_faulted hf]; exact running_next _

theorem running_withVersion {v : Nat} {s : State} {r : Result} (h : Running r) : Running (withVersion v s r) := by
  by_cases hv : 1 ≤ v ∧ v ≤ 40
  · rwa [withVersion_ok hv]
  · rw [withVersion_bad hv]; exact running_next _

theorem running_withWidth {w : Nat} {s : State} {r : Result} (h : Running r) : Running (withWidth w s r) := by
  rcases Nat.lt_or_ge s.params.W w with hw | hw
  · rw [withWidth_bad hw]; exact running_next _
  · rwa [withWidth_ok hw]

theorem running_withRoom {n : Nat} {s : State} {r : Result} (h : Running r) : Running (withRoom n s r) := by
  rcases Nat.lt_or_ge s.params.maxBits n with hn | hn
  · rw [withRoom_full hn]; exact running_next _
  · rwa [withRoom_ok hn]

/-- No payload byte below PLEN is absent. -/
theorem running_withPayload {s : State} {f : List Byte → Result} (hs : PayloadWf s) (h : ∀ p, Running (f p)) :
    Running (withPayload s f) := by
  obtain ⟨p, hp⟩ := Option.isSome_iff_exists.mp (payload_isSome hs)
  rw [withPayload_some hp]
  exact h p

/-- No stream word below NWORDS is absent. -/
theorem running_withStreamWord {i : Nat} {s : State} {f : Nat → Result} (hs : StreamWf s.params.W s.stream)
    (h : ∀ w, Running (f w)) : Running (withStreamWord i s f) := by
  rcases Nat.lt_or_ge i s.nwords with hi | hi
  · obtain ⟨w, hw⟩ := Option.isSome_iff_exists.mp ((Memory.read_isSome_of_keys hs.1 i).mpr hi)
    rw [withStreamWord_some hi hw]
    exact h w
  · rw [withStreamWord_bad hi]; exact running_next _

theorem running_withAppended {st : BitStream} {o : Option BitStream} {f : BitStream → Result} (ho : o = some st)
    (h : Running (f st)) : Running (withAppended o f) := by
  rwa [ho]

theorem running_lookUpWidth (m : EncodingMode) (v : Nat) (s : State) : Running (lookUpWidth m v s) :=
  running_unlessFaulted (running_withVersion (running_next _))

/-- ENC.x (R171): the words it appends to are listed. -/
theorem running_appendPayload (m : SegmentMode) {s : State} (hW : 0 < s.params.W) (hst : StreamWf s.params.W s.stream)
    (hpl : PayloadWf s) : Running (appendPayload m s) := by
  refine running_unlessFaulted (running_withPayload hpl fun p => ?_)
  cases packetsOf m p with
  | error code => exact running_next _
  | ok ps =>
    obtain ⟨l, hl⟩ := Option.isSome_iff_exists.mp (streamBits_isSome hW hst)
    obtain ⟨st, happ, -⟩ := appendPackets_bits hW ps hst hl
    exact running_withRoom (running_withAppended happ (running_next _))

/-- ENCODE.x other than K (R185): it appends to an empty stream, so the old stream does not matter. -/
theorem running_encodeSegment (x : Option SegmentMode) {s : State} (hW : 0 < s.params.W) (hpl : PayloadWf s) :
    Running (encodeSegment x s) := by
  apply running_unlessFaulted
  split
  · exact running_next _
  · refine running_withPayload hpl fun p => ?_
    cases hps : packetsOf (x.getD (classifyBytes p)) p with
    | error code => rw [encodePayload_alphabet hps]; exact running_next _
    | ok ps =>
      simp only [encodePayload, hps]
      obtain ⟨st, hst, -⟩ := encodeStream_bits hW (x.getD (classifyBytes p)) s.plen
        (ccw (encodingOf (x.getD (classifyBytes p))) s.version.toNat) ps
      exact running_withRoom (running_withAppended hst (running_next _))

/-- Every command completes where the stream and the payload buffer are well formed, in fault state too. -/
theorem running_exec (i : Instr) {s : State} (hW : 0 < s.params.W) (hst : StreamWf s.params.W s.stream) (hpl : PayloadWf s) :
    Running (exec i s) := by
  cases i with
  | init => exact running_next _
  | rdstat => exact running_next _
  | setver v => exact running_unlessFaulted (running_withVersion (running_next _))
  | setecl e => exact running_unlessFaulted (running_next _)
  | plClr => exact running_unlessFaulted (running_next _)
  | plPush c =>
    apply running_unlessFaulted
    split <;> exact running_next _
  | bsNew => exact running_unlessFaulted (running_next _)
  | bsBit b =>
    obtain ⟨st, happ, -⟩ := appendBit_spec hW hst (imm1Bit b)
    exact running_unlessFaulted (running_withRoom (running_withAppended happ (running_next _)))
  | bsBits width value =>
    obtain ⟨l, hl⟩ := Option.isSome_iff_exists.mp (streamBits_isSome hW hst)
    obtain ⟨st, happ, -⟩ := appendBits_bits hW value (imm8Nat width) hst hl
    exact running_unlessFaulted (running_withWidth (running_withRoom (running_withAppended happ (running_next _))))
  | bsLen => exact running_unlessFaulted (running_next _)
  | bsData index => exact running_unlessFaulted (running_withStreamWord hst fun w => running_next _)
  | classify => exact running_unlessFaulted (running_withPayload hpl fun p => running_next _)
  | ccwN v => exact running_lookUpWidth .numeric v s
  | ccwA v => exact running_lookUpWidth .alphanumeric v s
  | ccwB v => exact running_lookUpWidth .byteText v s
  | ccwK v => exact running_lookUpWidth .kanji v s
  | acb c =>
    apply running_unlessFaulted
    split <;> exact running_next _
  | encN => exact running_appendPayload .numeric hW hst hpl
  | encA => exact running_appendPayload .alphanumeric hW hst hpl
  | encB => exact running_appendPayload .byteText hW hst hpl
  | encK => exact running_unlessFaulted (running_next _)
  | encodeAuto => exact running_encodeSegment none hW hpl
  | encodeN => exact running_encodeSegment (some .numeric) hW hpl
  | encodeA => exact running_encodeSegment (some .alphanumeric) hW hpl
  | encodeB => exact running_encodeSegment (some .byteText) hW hpl
  | encodeK => exact running_unlessFaulted (running_next _)

/-- R6 allows no empty word. -/
theorem width_pos_of_allowed {P : Params} (h : P.Allowed) : 0 < P.W := by
  obtain ⟨hW, -⟩ := h
  omega

/-- Settles O56, by what the host has issued: nothing, a reset, a command with a legal header, or one with an illegal header. -/
theorem stepAlwaysCompletes : Obligations.StepAlwaysCompletes := by
  intro s hs
  cases hq : s.queue with
  | nil => simp only [step, hq, running_next]
  | cons input rest =>
    cases input with
    | reset inFlight => simp only [step, hq, running_next]
    | command c =>
      simp only [step, hq]
      split
      · exact running_exec _ (width_pos_of_allowed hs.params) hs.stream hs.payload
      · exact running_unlessFaulted (running_next _)

end Sys2Proof.Machine
end

section
/-! The columns "written by" of R20 and R30: for each register, what a command that passes its checks leaves in it. -/

namespace Sys2Proof.Machine

/-- VERSION is written by SETVER alone, with a version in 1..40 (R202). -/
theorem Effect.version_cases {s t : State} {i : Instr} (h : Effect s i t) :
    t.version = s.version ∨ ∃ v, i = .setver v ∧ t.version.toNat ≤ 40 := by
  cases h with
  | setver hv =>
    refine .inr ⟨_, rfl, ?_⟩
    rw [BitVec.toNat_ofNat]
    omega
  | _ => exact .inl rfl

/-- ECL is written by SETECL alone (R203). -/
theorem Effect.ecl_cases {s t : State} {i : Instr} (h : Effect s i t) : t.ecl = s.ecl ∨ ∃ e, i = .setecl e := by
  cases h with
  | setecl => exact .inr ⟨_, rfl⟩
  | _ => exact .inl rfl

/-- A command that makes a segment has op 0xF. -/
theorem Encodes.isEncode_eq {p : List Byte} {i : Instr} {m : SegmentMode} (h : Encodes p i m) : isEncode i = true := by
  cases h <;> rfl

/-- A command that appends the payload has op 0xE. -/
theorem Appends.isEnc_eq {i : Instr} {m : SegmentMode} (h : Appends i m) : isEnc i = true := by
  cases h <;> rfl

/-- MODE is written by CLASSIFY and ENCODE, with the code of a mode that has an encoder (R135, R185). -/
theorem Effect.mode_cases {s t : State} {i : Instr} (h : Effect s i t) :
    t.mode = s.mode ∨ (i = .classify ∨ isEncode i = true) ∧ ∃ m, t.mode = segmentCode m := by
  cases h with
  | classify => exact .inr ⟨.inl rfl, _, rfl⟩
  | encode hi => exact .inr ⟨.inr hi.isEncode_eq, _, rfl⟩
  | _ => exact .inl rfl

/-- PLEN and PBUF are written by PL.CLR and PL.PUSH alone (R204, R205). -/
theorem Effect.payload_cases {s t : State} {i : Instr} (h : Effect s i t) :
    (t.plen = s.plen ∧ t.pbuf = s.pbuf) ∨ (i = .plClr ∧ t.plen = 0 ∧ t.pbuf = []) ∨
    ∃ c, i = .plPush c ∧ s.plen ≠ s.params.PMAX ∧ t.plen = s.plen + 1 ∧ t.pbuf = s.pbuf.write s.plen c := by
  cases h with
  | plClr => exact .inr (.inl ⟨rfl, rfl, rfl⟩)
  | plPush hp => exact .inr (.inr ⟨_, rfl, hp, rfl, rfl⟩)
  | _ => exact .inl ⟨rfl, rfl⟩

/-- One packet is one `appendBits`. -/
theorem appendPackets_singleton (W v w : Nat) (st : BitStream) : appendPackets W [⟨v, w⟩] st = appendBits W v w st := by
  simp only [appendPackets]
  cases appendBits W v w st <;> rfl

/-- One bit is a value of width 1 (R122). -/
theorem appendBits_one (W : Nat) (b : Bool) (st : BitStream) : appendBits W b.toNat 1 st = appendBit W b st := by
  have hb : bitOf b.toNat 0 = b := by cases b <;> rfl
  simp only [appendBits, hb]
  cases appendBit W b st <;> rfl

/-- The stream is emptied by BS.NEW, appended to within MAXBITS by BS.BIT, BS.BITS and ENC, and made anew by ENCODE (R21, R118). -/
theorem Effect.stream_cases {s t : State} {i : Instr} (h : Effect s i t) :
    t.stream = s.stream ∨ (i = .bsNew ∧ t.stream = emptyStream) ∨
    (((∃ b, i = .bsBit b) ∨ (∃ w v, i = .bsBits w v) ∨ isEnc i = true) ∧
      ∃ ps, appendPackets s.params.W ps s.stream = some t.stream ∧ s.stream.blen + (flatten ps).length ≤ s.params.maxBits) ∨
    isEncode i = true := by
  cases h with
  | bsNew => exact .inr (.inl ⟨rfl, rfl⟩)
  | @bsBit b st hr hst =>
    refine .inr (.inr (.inl ⟨.inl ⟨b, rfl⟩, [⟨(imm1Bit b).toNat, 1⟩], ?_, ?_⟩))
    · rwa [appendPackets_singleton, appendBits_one]
    · simpa [flatten_cons] using hr
  | @bsBits w v st hw hr hst =>
    refine .inr (.inr (.inl ⟨.inr (.inl ⟨w, v, rfl⟩), [⟨v, imm8Nat w⟩], ?_, ?_⟩))
    · rwa [appendPackets_singleton]
    · simpa [flatten_cons] using hr
  | enc hi hp hps hr hst =>
    exact .inr (.inr (.inl ⟨.inr (.inr hi.isEnc_eq), _, hst, by rwa [packetsOf_bits hps, payload_length hp]⟩))
  | encode hi => exact .inr (.inr (.inr hi.isEncode_eq))
  | _ => exact .inl rfl

/-- SEGV is set by ENCODE, cleared by the commands of `clearsSegv` and kept by the rest (R30). -/
theorem Effect.segv_eq {s t : State} {i : Instr} (h : Effect s i t) :
    t.segv = if isEncode i then true else if clearsSegv i then false else s.segv := by
  cases h with
  | ccw hi => cases hi <;> rfl
  | enc hi => cases hi <;> rfl
  | encode hi => rw [if_pos hi.isEncode_eq]
  | _ => rfl

/-- A command that keeps SEGV keeps everything a segment is made from, and the stream (R30). -/
theorem Effect.eq_of_keepsSegv {s t : State} {i : Instr} (h : Effect s i t) (he : isEncode i = false)
    (hc : clearsSegv i = false) : t = { s with ecl := t.ecl, rsp := t.rsp } := by
  cases h with
  | enc hi => cases hi <;> cases hc
  | encode hi => cases he.symm.trans hi.isEncode_eq
  | rdstat | setecl | bsLen | bsData | ccw | acb => rfl
  | _ => cases hc

theorem Effect.params_eq {s t : State} {i : Instr} (h : Effect s i t) : t.params = s.params := by
  cases h <;> rfl

theorem Effect.queue_eq {s t : State} {i : Instr} (h : Effect s i t) : t.queue = s.queue := by
  cases h <;> rfl

/-- What neither a refusal nor a fault writes changes by INIT or by the effect of a command that passed its checks. -/
theorem init_or_effect_of_ne {α : Type} (register : State → α) {s t : State} {i : Instr} (h : exec i s = .next t)
    (hrefused : register s.refusedInFault = register s) (hraised : ∀ code, register (s.raised code) = register s)
    (hne : register t ≠ register s) : i = .init ∨ Effect s i t := by
  cases exec_cases h with
  | restored hi => exact .inl hi
  | refused _ _ _ ht => exact absurd (ht ▸ hrefused) hne
  | raised _ code _ ht => exact absurd (ht ▸ hraised code) hne
  | done _ he => exact .inr he

theorem exec_params_eq {i : Instr} {s t : State} (h : exec i s = .next t) : t.params = s.params := by
  cases exec_cases h with
  | restored _ ht | refused _ _ _ ht | raised _ _ _ ht => rw [ht]; rfl
  | done _ he => exact he.params_eq

theorem exec_queue_eq {i : Instr} {s t : State} (h : exec i s = .next t) : t.queue = s.queue := by
  cases exec_cases h with
  | restored _ ht | refused _ _ _ ht | raised _ _ _ ht => rw [ht]; rfl
  | done _ he => exact he.queue_eq

/-- FAULT is sticky (R29): only INIT changes a FAULT that is not 0. -/
theorem init_or_normal_of_fault_ne {i : Instr} {s t : State} (h : exec i s = .next t) (hne : t.fault ≠ s.fault) :
    i = .init ∨ s.fault = 0 := by
  cases exec_cases h with
  | restored hi => exact .inl hi
  | refused _ _ _ ht => exact absurd (by rw [ht]; rfl) hne
  | raised hf => exact .inr hf
  | done _ he => exact absurd he.fault_eq hne

/-- Settles O46, register by register: a change comes from INIT or from an effect, and the effect names its writers. -/
theorem registersHaveTheirWritersOnly : Obligations.RegistersHaveTheirWritersOnly := by
  intro i s t h
  refine ⟨exec_params_eq h, exec_queue_eq h, fun hne => ?_, fun hne => ?_, fun hne => ?_, fun hne => ?_, fun hne => ?_,
    init_or_normal_of_fault_ne h⟩
  · refine (init_or_effect_of_ne State.version h rfl (fun _ => rfl) hne).imp_right fun he => ?_
    obtain ⟨v, hi, -⟩ := he.version_cases.resolve_left hne
    exact ⟨v, hi⟩
  · exact (init_or_effect_of_ne State.ecl h rfl (fun _ => rfl) hne).imp_right fun he => he.ecl_cases.resolve_left hne
  · exact (init_or_effect_of_ne State.mode h rfl (fun _ => rfl) hne).imp_right fun he => (he.mode_cases.resolve_left hne).1
  · have hne' : (t.plen, t.pbuf) ≠ (s.plen, s.pbuf) := by rwa [Ne, Prod.mk.injEq, not_and_or]
    refine (init_or_effect_of_ne (fun s => (s.plen, s.pbuf)) h rfl (fun _ => rfl) hne').imp_right fun he => ?_
    obtain ⟨hlen, hbuf⟩ | ⟨hi, -⟩ | ⟨c, hi, -⟩ := he.payload_cases
    · exact absurd (Prod.ext hlen hbuf) hne'
    · exact .inl hi
    · exact .inr ⟨c, hi⟩
  · refine (init_or_effect_of_ne State.stream h rfl (fun _ => rfl) hne).imp_right fun he => ?_
    obtain ⟨hi, -⟩ | ⟨hi | hi | hi, -⟩ | hi := he.stream_cases.resolve_left hne
    · exact .inl hi
    · exact .inr (.inl hi)
    · exact .inr (.inr (.inl hi))
    · exact .inr (.inr (.inr (.inl hi)))
    · exact .inr (.inr (.inr (.inr hi)))

/-- No fault of the block has the code 0 (R221). -/
theorem faultBits_ne_zero (code : FaultCode) : faultBits code ≠ 0 := by
  cases code <;> decide

/-- The clearing commands of R30 do not set SEGV. -/
theorem isEncode_eq_false_of_clearsSegv {i : Instr} (h : clearsSegv i = true) : isEncode i = false := by
  cases i with
  | encodeAuto | encodeN | encodeA | encodeB | encodeK => cases h
  | _ => rfl

/-- The keeping commands of R30 neither set nor clear SEGV, and none is INIT. -/
theorem keepsSegv {i : Instr} (h : isRead i = true ∨ ∃ e, i = .setecl e) :
    i ≠ .init ∧ isEncode i = false ∧ clearsSegv i = false := by
  obtain h | ⟨e, rfl⟩ := h
  · cases i with
    | rdstat | bsLen | bsData _ | ccwN _ | ccwA _ | ccwB _ | ccwK _ | acb _ => exact ⟨nofun, rfl, rfl⟩
    | _ => cases h
  · exact ⟨nofun, rfl, rfl⟩

/-- Settles O47, by the four ways a command ends; a command that passes its checks follows `Effect.segv_eq`. -/
theorem segvSetByEncodeOnly : Obligations.SegvSetByEncodeOnly := by
  intro i s t h
  cases exec_cases h with
  | restored hi ht =>
    subst hi ht
    exact ⟨fun _ _ he => (nomatch he), fun _ => rfl, fun _ _ => rfl, fun _ _ _ => rfl, fun _ hk => absurd rfl (keepsSegv hk).1,
      fun _ hi => absurd rfl hi⟩
  | refused hf hi _ ht =>
    subst ht
    exact ⟨fun h0 => absurd h0 hf, fun h0 => absurd h0 hi, fun h0 => absurd h0 hf, fun h0 => absurd h0 hf, fun _ _ => rfl,
      fun _ _ => rfl⟩
  | raised hf code _ ht =>
    subst ht
    have hne : (s.raised code).fault ≠ 0 := faultBits_ne_zero code
    exact ⟨fun _ h0 => absurd h0 hne, fun _ => rfl, fun _ _ => rfl, fun _ _ _ => rfl,
      fun h0 => absurd (h0.trans hf) hne, fun h0 => absurd hf h0⟩
  | done hf he =>
    have hsegv := he.segv_eq
    refine ⟨fun _ _ hi => ?_, ?_, fun h0 hne => ?_, fun _ _ hc => ?_, fun _ hk => ?_, fun h0 _ => ?_⟩
    · rw [hsegv, if_pos hi]
    · rintro rfl
      cases he with
      | ccw hi | enc hi | encode hi => cases hi
    · exact absurd (he.fault_eq.trans h0) hne
    · simp [hsegv, isEncode_eq_false_of_clearsSegv hc, hc]
    · obtain ⟨-, hi, hc⟩ := keepsSegv hk
      simp [hsegv, hi, hc]
    · rw [hsegv, hf.resolve_left h0]
      rfl

end Sys2Proof.Machine
end

section
/-! Streams and bit strings (R39), and that a command which does not empty the stream only appends to it (R21, R125). -/

namespace Sys2Proof.Machine

/-- Appending a string bit by bit to the empty stream gives a well-formed stream that spells it. -/
theorem exists_stream_of_bits {W : Nat} (hW : 0 < W) (l : Bits) : ∃ st, StreamWf W st ∧ streamBits W st = some l := by
  induction l using List.reverseRecOn with
  | nil => exact ⟨emptyStream, emptyStream_wf hW, streamBits_empty W⟩
  | append_singleton l b ih =>
    obtain ⟨st, hwf, hbits⟩ := ih
    obtain ⟨st', -, hwf', -, hbits', -⟩ := appendBit_bits hW hwf hbits b
    exact ⟨st', hwf', hbits'⟩

/-- Settles O17: a string is appended to the empty stream bit by bit, and equal bits make equal streams. -/
theorem streamsAndBitStringsCorrespond : Obligations.StreamsAndBitStringsCorrespond := by
  refine fun W hW => ⟨fun l => ?_, fun st hst => ?_⟩
  · obtain ⟨st, hwf, hbits⟩ := exists_stream_of_bits hW l
    exact ⟨st, hwf, hbits, fun st' hwf' hbits' => stream_ext hW hwf' hwf (hbits'.trans hbits.symm)⟩
  · obtain ⟨l, hl⟩ := Option.isSome_iff_exists.mp (streamBits_isSome hW hst)
    exact ⟨l, hl, streamBits_length hl⟩

/-- What an append that answered has done to a well-formed stream (R169). -/
theorem bits_of_appendPackets {W : Nat} {ps : List Packet} {st st' : BitStream} {l : Bits} (hW : 0 < W) (hst : StreamWf W st)
    (hl : streamBits W st = some l) (h : appendPackets W ps st = some st') :
    StreamWf W st' ∧ st'.blen = st.blen + (flatten ps).length ∧ streamBits W st' = some (l ++ flatten ps) := by
  obtain ⟨st1, h1, hwf, hlen, hbits, -⟩ := appendPackets_bits hW ps hst hl
  obtain rfl := Option.some.inj (h1.symm.trans h)
  exact ⟨hwf, hlen, hbits⟩

/-- Where a command passes its checks and is neither BS.NEW nor ENCODE, the old string stays in front. -/
theorem Effect.stream_extends {s t : State} {i : Instr} {l : Bits} (h : Effect s i t) (hn : i ≠ .bsNew)
    (he : isEncode i = false) (hW : 0 < s.params.W) (hst : StreamWf s.params.W s.stream)
    (hl : streamBits s.params.W s.stream = some l) : ∃ l', streamBits s.params.W t.stream = some (l ++ l') := by
  obtain hsame | ⟨hi, -⟩ | ⟨-, ps, happ, -⟩ | hi := h.stream_cases
  · exact ⟨[], by rw [hsame, hl, List.append_nil]⟩
  · exact absurd hi hn
  · obtain ⟨-, -, hbits⟩ := bits_of_appendPackets hW hst hl happ
    exact ⟨flatten ps, hbits⟩
  · cases he.symm.trans hi

/-- Settles O18: a refusal and a fault keep the stream, and every other effect appends to it. -/
theorem onlyEmptyingCommandsLoseBits : Obligations.OnlyEmptyingCommandsLoseBits := by
  intro i s t l hW hst hl h hinit hnew he
  cases exec_cases h with
  | restored hi => exact absurd hi hinit
  | refused _ _ _ ht | raised _ _ _ ht => subst ht; exact ⟨[], by simpa using hl⟩
  | done _ heff => exact heff.stream_extends hnew he hW hst hl

end Sys2Proof.Machine
end

section
/-! The packets of the encoders are those of the index rules (R161, R164, R167), on payloads of the mode's alphabet (R162, R166). -/

namespace Sys2Proof.Machine

/-- Where every element has a result and `g` gives it, the results are those of `g`. -/
theorem lookupAll_eq_map {α β : Type} {f : α → Option β} {g : α → β} {xs : List α} {ys : List β} (h : lookupAll f xs = some ys)
    (hg : ∀ x y, f x = some y → g x = y) : ys = xs.map g := by
  refine List.ext_getElem? fun k => ?_
  rw [lookupAll_getElem? h, List.getElem?_map]
  cases hx : xs[k]? with
  | none => rfl
  | some x =>
    obtain ⟨y, hy⟩ := Option.isSome_iff_exists.mp
      ((lookupAll_isSome_iff f xs).mp (by simp [h]) x (List.mem_of_getElem? hx))
    simp [hy, hg x y hy]

/-- The ROM's valid bit is membership in the set of R132. -/
theorem isAlnum_eq_inAlphanumericSet (c : Byte) : isAlnum c = inAlphanumericSet c := by
  revert c; decide

/-- The formulas of R151 give the address table of R152. -/
theorem acbRom_eq_codebookAt (c : Byte) : acbRom c = codebookAt c := by
  revert c; decide

/-- A payload that the encoder accepts meets the mode's precondition. -/
theorem meetsAlphabet_of_packetsOf {m : SegmentMode} {p : List Byte} {ps : List Packet} (h : packetsOf m p = .ok ps) :
    meetsAlphabet m p = true := by
  cases m with
  | numeric =>
    cases hb : p.all isNum with
    | false => rw [packetsOf_numeric_error hb] at h; cases h
    | true => exact hb
  | alphanumeric =>
    cases hb : p.all isAlnum with
    | false => rw [packetsOf_alphanumeric_error hb] at h; cases h
    | true =>
      rw [funext isAlnum_eq_inAlphanumericSet] at hb
      exact hb
  | byteText => rfl

/-- Three digits more are one packet more in front. -/
theorem rulePackets_numeric_cons (a b c : Byte) (p : List Byte) : rulePackets .numeric (a :: b :: c :: p) =
    { value := 100 * (a.toNat - 0x30) + 10 * (b.toNat - 0x30) + (c.toNat - 0x30), width := 10 } :: rulePackets .numeric p := by
  have hshift : ∀ i, digitAt (a :: b :: c :: p) (i + 3) = digitAt p i := fun _ => rfl
  have hdiv : (p.length + 1 + 1 + 1) / 3 = p.length / 3 + 1 := by omega
  have hmod : (p.length + 1 + 1 + 1) % 3 = p.length % 3 := by omega
  simp only [rulePackets, List.length_cons, hdiv, hmod, List.range_succ_eq_map, List.map_cons, List.map_map,
    Function.comp_def, Nat.succ_eq_add_one, Nat.mul_add, Nat.mul_one, hshift]
  rfl

/-- Two characters more are one packet more in front. -/
theorem rulePackets_alphanumeric_cons (a b : Byte) (p : List Byte) : rulePackets .alphanumeric (a :: b :: p) =
    { value := 45 * (codebookAt a).getD 0 + (codebookAt b).getD 0, width := 11 } :: rulePackets .alphanumeric p := by
  have hshift : ∀ i, valueAt (a :: b :: p) (i + 2) = valueAt p i := fun _ => rfl
  have hdiv : (p.length + 1 + 1) / 2 = p.length / 2 + 1 := by omega
  have hmod : (p.length + 1 + 1) % 2 = p.length % 2 := by omega
  have hlast : (if p.length % 2 = 1 then [Packet.mk (valueAt (a :: b :: p) (p.length + 1 + 1 - 1)) 6] else []) =
      if p.length % 2 = 1 then [Packet.mk (valueAt p (p.length - 1)) 6] else [] := by
    split
    · rw [show p.length + 1 + 1 - 1 = p.length - 1 + 2 by omega, hshift]
    · rfl
  simp only [rulePackets, List.length_cons, hdiv, hmod, List.range_succ_eq_map, List.map_cons, List.map_map,
    Function.comp_def, Nat.succ_eq_add_one, Nat.mul_add, Nat.mul_one, hshift, hlast]
  rfl

/-- The runs cut from the digit values are those of the index rule (R161). -/
theorem numericRuns_eq_rulePackets : ∀ p : List Byte, numericRuns (p.map fun c => c.toNat - 0x30) = rulePackets .numeric p
  | a :: b :: c :: p => by
    rw [rulePackets_numeric_cons, ← numericRuns_eq_rulePackets p]
    rfl
  | [_, _] => by simp [numericRuns, rulePackets, digitAt]
  | [_] => by simp [numericRuns, rulePackets, digitAt]
  | [] => rfl

/-- The pairs cut from the codebook values are those of the index rule (R164). -/
theorem alphanumericPairs_eq_rulePackets : ∀ p : List Byte,
    alphanumericPairs (p.map fun c => (codebookAt c).getD 0) = rulePackets .alphanumeric p
  | a :: b :: p => by
    rw [rulePackets_alphanumeric_cons, ← alphanumericPairs_eq_rulePackets p]
    rfl
  | [_] => by simp [alphanumericPairs, rulePackets, valueAt]
  | [] => rfl

/-- Where the encoder accepts a payload, its packets are those of the index rules. -/
theorem packetsOf_eq_rulePackets {m : SegmentMode} {p : List Byte} {ps : List Packet} (h : packetsOf m p = .ok ps) :
    ps = rulePackets m p := by
  cases m with
  | numeric =>
    obtain ⟨ds, hds, hok⟩ := packetsOf_numeric_ok (meetsAlphabet_of_packetsOf h)
    have hval : ds = p.map fun c => c.toNat - 0x30 := lookupAll_eq_map hds fun c d hd => by
      unfold digitOf at hd
      split at hd
      · exact Option.some.inj hd
      · cases hd
    rw [hok] at h
    cases h
    rw [hval, numericRuns_eq_rulePackets]
  | alphanumeric =>
    have halnum : p.all isAlnum = true := by
      rw [funext isAlnum_eq_inAlphanumericSet]
      exact meetsAlphabet_of_packetsOf h
    obtain ⟨vs, hvs, hok⟩ := packetsOf_alphanumeric_ok halnum
    have hval : vs = p.map fun c => (codebookAt c).getD 0 := lookupAll_eq_map hvs fun c v hv => by
      rw [← acbRom_eq_codebookAt, hv, Option.getD_some]
    rw [hok] at h
    cases h
    rw [hval, alphanumericPairs_eq_rulePackets]
  | byteText =>
    cases h
    refine List.ext_getElem (by simp [rulePackets]) fun k hk _ => ?_
    rw [List.length_map] at hk
    simp [rulePackets, hk]

/-- The code of a mode as the number of R181. -/
theorem segmentCode_toNat (m : SegmentMode) : (segmentCode m).toNat = ruleCode m := by
  cases m <;> rfl

/-- The mode indicator, the count and the encoder's packets are the segment of R181. -/
theorem segmentBits_eq {m : SegmentMode} {p : List Byte} {ps : List Packet} (h : packetsOf m p = .ok ps) (v : Nat) :
    segmentBits m v p = bin 4 (segmentCode m).toNat ++ (bin (ccw (encodingOf m) v) p.length ++ flatten ps) := by
  rw [segmentBits, segmentCode_toNat, ruleWidth_eq_ccw, packetsOf_eq_rulePackets h]

end Sys2Proof.Machine
end

section
/-! The well-formed state (R39): the reset state is one, and a refusal, a fault, every effect and every step keep it. -/

namespace Sys2Proof.Machine

/-- With the nine items of R20 at their reset values the state is well formed. -/
theorem State.Inv.of_atReset {t : State} (h : AtReset t) (hp : t.params.Allowed)
    (hr : ∀ r ∈ t.rsp, r.f = t.fault ∧ r.d < 2 ^ t.params.W) : t.Inv := by
  obtain ⟨hblen, hbw, hplen, hpbuf, hversion, -, hmode, -, hsegv⟩ := h
  have hstream : t.stream = emptyStream := by rw [emptyStream, ← hblen, ← hbw]
  exact { params := hp
          room := by simp [hblen]
          stream := hstream ▸ emptyStream_wf (width_pos_of_allowed hp)
          payload := by simp [PayloadWf, hplen, hpbuf]
          version := by simp [hversion]
          mode := by simp [hmode]
          segment := by simp [hsegv]
          response := hr }

/-- Settles O54: the reset state lists nothing, and every register is 0. -/
theorem resetStateIsWellFormed : Obligations.ResetStateIsWellFormed :=
  .of_atReset (by decide) (by decide) nofun

/-- What the host has issued is no part of the well-formedness. -/
theorem State.Inv.with_queue {s : State} (hs : s.Inv) (q : List Input) : ({ s with queue := q } : State).Inv :=
  { hs with }

theorem State.Inv.hardReset {s : State} (hs : s.Inv) : s.hardReset.Inv :=
  .of_atReset ⟨rfl, rfl, rfl, rfl, rfl, rfl, rfl, rfl, rfl⟩ hs.params nofun

/-- INIT: the reset state with the response (0, 0). -/
theorem State.Inv.restored_answered {s : State} (hs : s.Inv) : (s.restored.answered 0 0).Inv :=
  .of_atReset ⟨rfl, rfl, rfl, rfl, rfl, rfl, rfl, rfl, rfl⟩ hs.params (by simp)

theorem State.Inv.refusedInFault {s : State} (hs : s.Inv) : s.refusedInFault.Inv :=
  { hs with response := by simp }

theorem State.Inv.raised {s : State} (hs : s.Inv) (code : FaultCode) : (s.raised code).Inv :=
  { hs with segment := by simp, response := by simp }

/-- What a successful ENCODE leaves is the segment of R181 for the mode it used, in a well-formed stream within MAXBITS. -/
theorem Effect.segmentHeld {s t : State} {i : Instr} (h : Effect s i t) (hi : isEncode i = true) (hf : s.fault = 0)
    (hW : 0 < s.params.W) : StreamWf s.params.W t.stream ∧ t.stream.blen ≤ s.params.maxBits ∧ SegmentHeld t := by
  cases h with
  | ccw hl => cases hl <;> cases hi
  | enc ha => cases ha <;> cases hi
  | @encode _ m p ps st he hv hp hps hr hst =>
    obtain ⟨st', hst', hwf, hlen, hbits⟩ := encodeStream_bits hW m s.plen (Sys2Proof.Machine.ccw (encodingOf m) s.version.toNat) ps
    obtain rfl := Option.some.inj (hst'.symm.trans hst)
    rw [packetsOf_bits hps, payload_length hp] at hlen
    refine ⟨hwf, hlen ▸ hr, hf, hv, m, by cases m <;> decide, segmentCode_toNat m, ?_, ?_⟩
    · change s.payload.any (meetsAlphabet m) = true
      rw [hp]
      exact meetsAlphabet_of_packetsOf hps
    · change s.payload.map (segmentBits m s.version.toNat) = streamBits s.params.W st'
      rw [hp, hbits, Option.map_some, segmentBits_eq hps, payload_length hp]
  | _ => cases hi

/-- The stream clauses of R39 after a command that passed its checks. -/
theorem Effect.stream_inv {s t : State} {i : Instr} (h : Effect s i t) (hf : s.fault = 0 ∨ i = .rdstat) (hs : s.Inv) :
    StreamWf s.params.W t.stream ∧ t.stream.blen ≤ s.params.maxBits := by
  have hW := width_pos_of_allowed hs.params
  obtain hsame | ⟨-, hnew⟩ | ⟨-, ps, happ, hroom⟩ | hi := h.stream_cases
  · exact hsame ▸ ⟨hs.stream, hs.room⟩
  · exact hnew ▸ ⟨emptyStream_wf hW, Nat.zero_le _⟩
  · obtain ⟨l, hl⟩ := Option.isSome_iff_exists.mp (streamBits_isSome hW hs.stream)
    obtain ⟨hwf, hlen, -⟩ := bits_of_appendPackets hW hs.stream hl happ
    exact ⟨hwf, hlen ▸ hroom⟩
  · obtain ⟨hwf, hroom, -⟩ := h.segmentHeld hi (hf.resolve_right (by rintro rfl; cases hi)) hW
    exact ⟨hwf, hroom⟩

/-- PLEN stays within PMAX and PBUF keeps exactly PLEN bytes (R25, R39). -/
theorem Effect.payload_inv {s t : State} {i : Instr} (h : Effect s i t) (hs : PayloadWf s) : PayloadWf t := by
  obtain ⟨hle, hkeys⟩ := hs
  rw [PayloadWf, h.params_eq]
  obtain ⟨hlen, hbuf⟩ | ⟨-, hlen, hbuf⟩ | ⟨c, -, hne, hlen, hbuf⟩ := h.payload_cases
  · rw [hlen, hbuf]; exact ⟨hle, hkeys⟩
  · rw [hlen, hbuf]; exact ⟨Nat.zero_le _, rfl⟩
  · rw [hlen, hbuf]; exact ⟨by omega, Memory.keys_write_range hkeys c⟩

theorem Effect.version_inv {s t : State} {i : Instr} (h : Effect s i t) (hs : s.version.toNat ≤ 40) : t.version.toNat ≤ 40 := by
  obtain hv | ⟨v, -, hv⟩ := h.version_cases
  · rwa [hv]
  · exact hv

theorem Effect.mode_inv {s t : State} {i : Instr} (h : Effect s i t) (hs : s.mode ∈ [0b0000#4, 0b0001#4, 0b0010#4, 0b0100#4]) :
    t.mode ∈ [0b0000#4, 0b0001#4, 0b0010#4, 0b0100#4] := by
  obtain hm | ⟨-, m, hm⟩ := h.mode_cases
  · rwa [hm]
  · rw [hm]
    cases m <;> decide

/-- Where SEGV is 1 the segment is held: ENCODE has just made it, or nothing it was made from has changed (R30). -/
theorem Effect.segment_inv {s t : State} {i : Instr} (h : Effect s i t) (hf : s.fault = 0 ∨ i = .rdstat) (hs : s.Inv)
    (ht : t.segv = true) : SegmentHeld t := by
  by_cases hi : isEncode i = true
  · obtain ⟨-, -, hheld⟩ := h.segmentHeld hi (hf.resolve_right (by rintro rfl; cases hi)) (width_pos_of_allowed hs.params)
    exact hheld
  · rw [Bool.not_eq_true] at hi
    cases hc : clearsSegv i with
    | true => simp [h.segv_eq, hi, hc] at ht
    | false =>
      have hsegv : s.segv = true := by simpa [h.segv_eq, hi, hc] using ht
      rw [h.eq_of_keepsSegv hi hc]
      exact hs.segment hsegv

/-- The response carries FAULT (R81): 0, or the FAULT that RDSTAT reports. -/
theorem Effect.response_fault {s t : State} {i : Instr} (h : Effect s i t) (hf : s.fault = 0 ∨ i = .rdstat) :
    ∀ r ∈ t.rsp, r.f = t.fault := by
  by_cases hi : i = .rdstat
  · subst hi
    cases h with
    | rdstat => simp
    | ccw hi | enc hi | encode hi => cases hi
  · have h0 := hf.resolve_right hi
    cases h with
    | rdstat => exact absurd rfl hi
    | _ => simp [h0]

theorem acbRom_lt (c : Byte) : ∀ v ∈ acbRom c, v < 45 := by
  revert c; decide

/-- The response data is a W-bit number (R99). -/
theorem Effect.response_data {s t : State} {i : Instr} (h : Effect s i t) (hs : s.Inv)
    (ht : t.stream.blen ≤ s.params.maxBits) : ∀ r ∈ t.rsp, r.d < 2 ^ s.params.W := by
  obtain ⟨hwidth, -, hbits, -, hbytes⟩ := hs.params
  have hW : 2 ^ 16 ≤ 2 ^ s.params.W := Nat.pow_le_pow_right (by decide) (by omega)
  have hblen := ht.trans_lt hbits
  intro r hr
  cases h with
  | rdstat => cases hr; exact (statusBits s).isLt.trans_le hW
  | plPush hne => cases hr; exact Nat.lt_of_le_of_lt (Nat.lt_of_le_of_ne hs.payload.1 hne) hbytes
  | bsData _ hw => cases hr; exact hs.stream.2.1 _ (Memory.mem_of_read hw)
  | classify => cases hr; exact (segmentCode _).isLt.trans_le (by omega)
  | @ccw _ m v => cases hr; exact (ccw_le m v).trans_lt (by omega)
  | acb hv => cases hr; exact (acbRom_lt _ _ hv).trans_le (by omega)
  | setver | setecl | plClr | bsNew => cases hr; exact Nat.two_pow_pos _
  | bsBit | bsBits | bsLen | enc | encode => cases hr; exact hblen

/-- A command that passes its checks keeps every clause of R39. -/
theorem Effect.inv {s t : State} {i : Instr} (h : Effect s i t) (hf : s.fault = 0 ∨ i = .rdstat) (hs : s.Inv) : t.Inv := by
  have hp := h.params_eq
  obtain ⟨hstream, hroom⟩ := h.stream_inv hf hs
  exact { params := hp ▸ hs.params
          room := hp ▸ hroom
          stream := hp ▸ hstream
          payload := h.payload_inv hs.payload
          version := h.version_inv hs.version
          mode := h.mode_inv hs.mode
          segment := h.segment_inv hf hs
          response := fun r hr => ⟨h.response_fault hf r hr, hp ▸ h.response_data hs hroom r hr⟩ }

/-- "Every command takes a well-formed state to a well-formed state" (R39). -/
theorem exec_inv {i : Instr} {s t : State} (hs : s.Inv) (h : exec i s = .next t) : t.Inv := by
  cases exec_cases h with
  | restored _ ht => exact ht ▸ hs.restored_answered
  | refused _ _ _ ht => exact ht ▸ hs.refusedInFault
  | raised _ code _ ht => exact ht ▸ hs.raised code
  | done hf he => exact he.inv hf hs

/-- An illegal header is refused or raises IllegalCommand (R88). -/
theorem illegalCommand_inv {s t : State} (hs : s.Inv) (h : illegalCommand s = .next t) : t.Inv := by
  obtain ⟨-, rfl⟩ | ⟨-, h⟩ := next_of_unlessFaulted h
  · exact hs.refusedInFault
  · cases h
    exact hs.raised _

/-- Settles O55, by what the host has issued: nothing, a reset, a command with a legal header, or one with an illegal header. -/
theorem stepKeepsWellFormed : Obligations.StepKeepsWellFormed := by
  refine ⟨resetStateIsWellFormed, fun s t hs h => ?_⟩
  cases hq : s.queue with
  | nil =>
    rw [step, hq] at h
    cases h
    exact hs
  | cons input rest =>
    have hrest := hs.with_queue rest
    cases input with
    | reset inFlight =>
      rw [step, hq] at h
      cases h
      exact hrest.hardReset
    | command c =>
      simp only [step, hq] at h
      split at h
      · exact exec_inv hrest h
      · exact illegalCommand_inv hrest h

end Sys2Proof.Machine
end

section
/-! The memory view of the stream (R50 to R53, R67, R68): a string spells the value it was made from, a bit position of the architectural words
reads the string with 0 past its end, and a region of the string inside one word is a slice of that word. -/

namespace Sys2Proof.Machine

/-- A bit as the number R11 makes of it. -/
theorem bitOf_toNat (v i : Nat) : (bitOf v i).toNat = v / 2 ^ i % 2 := by
  have h := Nat.mod_two_eq_zero_or_one (v / 2 ^ i)
  rcases h with h | h <;> simp [bitOf, h]

/-- The bits of a value shifted down. -/
theorem bitOf_div_two_pow (v m i : Nat) : bitOf (v / 2 ^ m) i = bitOf v (m + i) := by
  rw [bitOf_eq_testBit, bitOf_eq_testBit, Nat.testBit_div_two_pow, Nat.add_comm]

/-- Reading `bin_w(v)` on from a number already spelled. -/
theorem foldl_bin (w v n : Nat) : (bin w v).foldl (fun n b => 2 * n + b.toNat) n = n * 2 ^ w + v % 2 ^ w := by
  induction w generalizing n with
  | zero => simp [Nat.mod_one]
  | succ w ih =>
    rw [bin_succ, List.foldl_cons, ih, bitOf_toNat, Nat.mod_pow_succ]
    ring

/-- `bin_w(v)` spells `v mod 2^w` (R12, R68). -/
theorem spelled_bin (w v : Nat) : spelled (bin w v) = v % 2 ^ w := by
  rw [spelled, foldl_bin, Nat.zero_mul, Nat.zero_add]

/-- The region of the k-th packet in a flattened list holds that packet's bits. -/
theorem flatten_region {ps : List Packet} {k : Nat} {p : Packet} (h : ps[k]? = some p) :
    ((flatten ps).drop ((ps.take k).map Packet.width).sum).take p.width = bin p.width p.value := by
  obtain ⟨hk, hp⟩ := List.getElem?_eq_some_iff.mp h
  have hsplit : ps = ps.take k ++ p :: ps.drop (k + 1) := by
    rw [← hp, ← List.drop_eq_getElem_cons hk, List.take_append_drop]
  have hbits : flatten ps = flatten (ps.take k) ++ (bin p.width p.value ++ flatten (ps.drop (k + 1))) := by
    conv_lhs => rw [hsplit, flatten_append, flatten_cons]
  rw [hbits, List.drop_left' (flatten_length _), List.take_left' (bin_length _ _)]

/-- Settles O14: the appends spell the flattened packets, and a packet's region of that string spells its value. -/
theorem readBackLawOfAppends : Obligations.ReadBackLawOfAppends := by
  intro W ps hW _
  obtain ⟨st, happ, hwf, hlen, hbits, -⟩ := appendPackets_bits hW ps (emptyStream_wf hW) (streamBits_empty W)
  refine ⟨st, flatten ps, happ, hwf, ?_, hbits, rfl, fun k p hk => ?_⟩
  · rw [hlen, flatten_length, emptyStream_blen, Nat.zero_add]
  · rw [flatten_region hk, spelled_bin]

/-- Every position of the architectural words reads the string, with 0 past its end (R23, R67). -/
theorem bitAt_eq_getD {W : Nat} {st : BitStream} {l : Bits} (h : StreamWf W st) (hl : streamBits W st = some l) {i : Nat}
    (hi : i < ceilDiv st.blen W * W) : bitAt W st i = some (l.getD i false) := by
  have hlen := streamBits_length hl
  rcases Nat.lt_or_ge i st.blen with hlt | hge
  · rw [streamBits_getElem? hl hlt, List.getElem?_eq_getElem (hlen ▸ hlt), List.getD_eq_getElem _ _ (hlen ▸ hlt)]
  · obtain ⟨-, -, hpad⟩ := h
    have hzero := hpad (i - st.blen) (by omega)
    rwa [Nat.add_sub_cancel' hge, ← List.getD_eq_default l false (hlen ▸ hge)] at hzero

/-- A position of the stream read through the word that holds it (R23 clause b). -/
theorem bitAt_of_read {W : Nat} {st : BitStream} {i w : Nat} (h : st.bw.read (i / W) = some w) :
    bitAt W st i = some (bitOf w (W - 1 - i % W)) := by
  rw [bitAt, h, Option.map_some]

/-- BS.LEN in normal state (R123). -/
theorem exec_bsLen {s : State} (hf : s.fault = 0) : exec .bsLen s = .next (s.answered 0 s.stream.blen) :=
  unlessFaulted_normal hf

/-- BS.DATA in normal state at a word that is listed (R124). -/
theorem exec_bsData {s : State} {j w : Nat} (hf : s.fault = 0) (hj : j < s.nwords) (hw : s.stream.bw.read j = some w) :
    exec (.bsData j) s = .next (s.answered 0 w) :=
  (unlessFaulted_normal hf).trans (withStreamWord_some hj hw)

/-- Settles O13: the word BS.DATA answers is the one that holds the position. -/
theorem packedViewReadsBackBits : Obligations.PackedViewReadsBackBits := by
  intro s l hs hf hl
  have hlen := streamBits_length hl
  refine ⟨hlen ▸ exec_bsLen hf, fun i hi => ?_⟩
  rw [hlen] at hi
  have hword : i / s.params.W < s.nwords := Nat.div_lt_of_lt_mul (by rwa [Nat.mul_comm])
  obtain ⟨hkeys, -⟩ := hs.stream
  obtain ⟨w, hw⟩ := Option.isSome_iff_exists.mp ((Memory.read_isSome_of_keys hkeys _).mpr hword)
  refine ⟨w, exec_bsData hf hword hw, ?_⟩
  have hbit := (bitAt_of_read hw).symm.trans (bitAt_eq_getD hs.stream hl hi)
  rw [← bitOf_toNat, Option.some.inj hbit]

/-- A region whose bits are the low n bits of v, most significant first, is `bin_n(v)`. -/
theorem take_drop_eq_bin {l : Bits} {a n v : Nat} (h : ∀ j < n, l[a + j]? = some (bitOf v (n - 1 - j))) :
    (l.drop a).take n = bin n v := by
  refine List.ext_getElem? fun j => ?_
  rcases Nat.lt_or_ge j n with hj | hj
  · rw [List.getElem?_take_of_lt hj, List.getElem?_drop, h j hj, bin_getElem? hj]
  · rw [List.getElem?_eq_none ((List.length_take_le _ _).trans hj), List.getElem?_eq_none (by rwa [bin_length])]

/-- A word of the block is a whole number of bytes (R6). -/
theorem width_eq_bytes {P : Params} (h : P.Allowed) : P.W = 8 * (P.W / 8) := by
  obtain ⟨hW, -⟩ := h
  omega

/-- In words of B bytes, bit j of byte k is in word k div B, at position 8 (k mod B) + j of it (R50, R51). -/
theorem byte_bit_index (B k : Nat) {j : Nat} (hj : j < 8) :
    (8 * k + j) / (8 * B) = k / B ∧ (8 * k + j) % (8 * B) = 8 * (k % B) + j := by
  have hbyte : (8 * k + j) / 8 = k := by omega
  rw [← Nat.div_div_eq_div_mul, Nat.mod_mul, hbyte]
  exact ⟨rfl, by omega⟩

/-- Settles O19: the 8 bits of codeword k are a byte of the word that holds them. -/
theorem codewordsAreBigEndianBytes : Obligations.CodewordsAreBigEndianBytes := by
  intro s l k w hs hl hk hw
  have hlen := streamBits_length hl
  have hbytes := width_eq_bytes hs.params
  have hpos := width_pos_of_allowed hs.params
  have hbyte : k % (s.params.W / 8) < s.params.W / 8 := Nat.mod_lt _ (by omega)
  have hregion : (l.drop (8 * k)).take 8 = bin 8 (w / 2 ^ (s.params.W - 8 - 8 * (k % (s.params.W / 8)))) := by
    refine take_drop_eq_bin fun j hj => ?_
    obtain ⟨hdiv, hmod⟩ := byte_bit_index (s.params.W / 8) k hj
    rw [← hbytes] at hdiv hmod
    rw [← streamBits_getElem? hl (by omega), bitAt_of_read (hdiv ▸ hw), hmod, bitOf_div_two_pow]
    congr 2
    omega
  rw [hregion, spelled_bin]
  rfl

end Sys2Proof.Machine
end

section
/-! What a step runs (R62, R82, R241), and that the read commands of R59 change nothing but the response. -/

namespace Sys2Proof.Machine

/-- The command at the head of the queue runs on the state with that input taken (R62, R82). -/
theorem step_command {s : State} {c : Command} {rest : List Input} {i : Instr} (hq : s.queue = .command c :: rest)
    (hd : decode s.params c = .ok i) : step s = exec i { s with queue := rest } := by
  simp only [step, hq, hd]

/-- With nothing issued the block holds its state (R241, R263). -/
theorem step_idle {s : State} (hq : s.queue = []) : step s = .next s := by
  simp only [step, hq]

/-- Settles O48: a command placed by `withFetchWord` stands at the head of the queue, and taking it gives the old queue back. -/
theorem stepRunsDecodedCommand : Obligations.StepRunsDecodedCommand :=
  ⟨fun _ _ _ _ hq hd => step_command hq hd, fun s nbits w _ hd => step_command (s := s.withFetchWord nbits w) rfl hd,
    fun _ hq => step_idle hq⟩

/-- A read command that passes its checks changes the response alone (R59). -/
theorem Effect.eq_of_isRead {s t : State} {i : Instr} (h : Effect s i t) (hi : isRead i = true) : t = { s with rsp := t.rsp } := by
  obtain ⟨-, he, hc⟩ := keepsSegv (.inl hi)
  obtain hecl | ⟨e, rfl⟩ := h.ecl_cases
  · have hkept := h.eq_of_keepsSegv he hc
    rwa [hecl] at hkept
  · cases hi

/-- No command reads the last response, and each one overwrites it (R35, log 3). -/
theorem exec_with_rsp (i : Instr) (s : State) (r : Option Response) : exec i { s with rsp := r } = exec i s := by
  cases i <;> rfl

/-- Settles O45: the second run starts from the first one's state but for the response, which no command reads. -/
theorem readsHaveNoSideEffect : Obligations.ReadsHaveNoSideEffect := by
  intro i s t hi hf h ht
  have hsame : t = { s with rsp := t.rsp } := by
    cases exec_cases h with
    | restored hinit => subst hinit; cases hi
    | refused hne => exact absurd hf hne
    | raised _ code _ hraised => subst hraised; exact absurd ht (faultBits_ne_zero code)
    | done _ heff => exact heff.eq_of_isRead hi
  refine ⟨hsame, ?_⟩
  rw [hsame, exec_with_rsp, h, ← hsame]

end Sys2Proof.Machine
end

section
/-! The decoder inverted (R83 to R86): what each format's answer says about `b`, and `decode_eq_ok_iff`, which says that the decoder
answers a command exactly on that command's header and operand. -/

namespace Sys2Proof.Machine

/-- A property of every op, one case per row of R85. -/
theorem op_cases {motive : BitVec 4 → Prop} (init : motive 0x0#4) (rdstat : motive 0x1#4) (setver : motive 0x2#4)
    (setecl : motive 0x3#4) (plClr : motive 0x4#4) (plPush : motive 0x5#4) (bsNew : motive 0x6#4) (bsBit : motive 0x7#4)
    (bsBits : motive 0x8#4) (bsLen : motive 0x9#4) (bsData : motive 0xA#4) (classify : motive 0xB#4) (ccw : motive 0xC#4)
    (acb : motive 0xD#4) (enc : motive 0xE#4) (encode : motive 0xF#4) (op : BitVec 4) : motive op := by
  have hop : op ∈ (List.range 16).map (BitVec.ofNat 4) := by revert op; decide
  revert op
  simpa [List.range_succ] using ⟨init, rdstat, setver, setecl, plClr, plPush, bsNew, bsBit, bsBits, bsLen, bsData, classify, ccw, acb, enc,
    encode⟩

theorem formatZ_eq_ok_iff {b : BitVec 8} {i j : Instr} : formatZ b j = .ok i ↔ b = 0#8 ∧ j = i := by
  unfold formatZ
  split <;> simp [*]

/-- A bit string whose high part is known is that part and its low part. -/
theorem eq_append_of_high {m n : Nat} {b : BitVec (m + n)} {high : BitVec m} (h : b.extractLsb' n m = high) :
    b = high ++ b.extractLsb' 0 n := by
  rw [← h, BitVec.extractLsb'_append_extractLsb']

theorem formatI2_append (e : BitVec 2) (f : BitVec 2 → Instr) : formatI2 (0#6 ++ e) f = .ok (f e) := by
  rw [formatI2, BitVec.extractLsb'_append_eq_left, BitVec.extractLsb'_append_eq_right, if_pos rfl]

theorem exists_imm2_of_formatI2 {b : BitVec 8} {f : BitVec 2 → Instr} {i : Instr} (h : formatI2 b f = .ok i) :
    ∃ e, b = 0#6 ++ e ∧ f e = i := by
  unfold formatI2 at h
  split at h
  · next h0 => cases h; exact ⟨_, eq_append_of_high (m := 6) h0, rfl⟩
  · cases h

theorem formatI1_append (e : BitVec 1) (f : BitVec 1 → Instr) : formatI1 (0#7 ++ e) f = .ok (f e) := by
  rw [formatI1, BitVec.extractLsb'_append_eq_left, BitVec.extractLsb'_append_eq_right, if_pos rfl]

theorem exists_imm1_of_formatI1 {b : BitVec 8} {f : BitVec 1 → Instr} {i : Instr} (h : formatI1 b f = .ok i) :
    ∃ e, b = 0#7 ++ e ∧ f e = i := by
  unfold formatI1 at h
  split at h
  · next h0 => cases h; exact ⟨_, eq_append_of_high (m := 7) h0, rfl⟩
  · cases h

theorem exists_mode_of_formatM {b : BitVec 8} {f : EncodingMode → Instr} {i : Instr} (h : formatM b f = .ok i) :
    ∃ m, b = 0#4 ++ modeCode m ∧ f m = i := by
  unfold formatM at h
  split at h
  · next h0 =>
    split at h
    · next m hm => cases h; exact ⟨m, by rw [modeCode_of_readModeCode hm]; exact eq_append_of_high (m := 4) h0, rfl⟩
    · cases h
  · cases h

/-- Format M with AUTO as a code of its own (R84). -/
theorem decodeFields_encode (b : BitVec 8) (a : Nat) :
    decodeFields 0xF#4 b a = if b = 0#8 then .ok .encodeAuto else formatM b encodeInstr := rfl

/-- The fields of a command's own header decode to the command, with its operand on the operand bus where its format has one. -/
theorem decodeFields_headerOf {i : Instr} {a : Nat} (ha : usesOperand i = true → operandOf i = a) :
    decodeFields (headerOp (headerOf i)) (headerImm (headerOf i)) a = .ok i := by
  cases i with
  | setver v | bsData v | ccwN v | ccwA v | ccwB v | ccwK v => cases ha rfl; rw [headerOf]; rfl
  | bsBits w v => cases ha rfl; rw [headerOf, headerOp_mkHeader, headerImm_mkHeader]; rfl
  | plPush c | acb c => rw [headerOf, headerOp_mkHeader, headerImm_mkHeader]; rfl
  | setecl e => rw [headerOf, headerOp_mkHeader, headerImm_mkHeader]; exact formatI2_append e _
  | bsBit b => rw [headerOf, headerOp_mkHeader, headerImm_mkHeader]; exact formatI1_append b _
  | _ => rfl

/-- Fields that decode to a command are those of its own header, and it carries the operand where its format has one. -/
theorem headerOf_of_decodeFields {op : BitVec 4} {b : BitVec 8} {a : Nat} {i : Instr} (h : decodeFields op b a = .ok i) :
    headerOf i = mkHeader op b ∧ (usesOperand i = true → operandOf i = a) := by
  cases op using op_cases with
  | setver | bsData => obtain ⟨rfl, rfl⟩ := formatZ_eq_ok_iff.1 h; exact ⟨rfl, fun _ => rfl⟩
  | setecl => obtain ⟨e, rfl, rfl⟩ := exists_imm2_of_formatI2 h; exact ⟨rfl, nofun⟩
  | bsBit => obtain ⟨e, rfl, rfl⟩ := exists_imm1_of_formatI1 h; exact ⟨rfl, nofun⟩
  | plPush | acb => cases h; exact ⟨rfl, nofun⟩
  | bsBits => cases h; exact ⟨rfl, fun _ => rfl⟩
  | ccw => obtain ⟨m, rfl, rfl⟩ := exists_mode_of_formatM h; cases m <;> exact ⟨rfl, fun _ => rfl⟩
  | enc => obtain ⟨m, rfl, rfl⟩ := exists_mode_of_formatM h; cases m <;> exact ⟨rfl, nofun⟩
  | encode =>
    rw [decodeFields_encode] at h
    split at h
    · next h0 => cases h; exact ⟨by rw [h0]; rfl, nofun⟩
    · obtain ⟨m, rfl, rfl⟩ := exists_mode_of_formatM h; cases m <;> exact ⟨rfl, nofun⟩
  | _ => obtain ⟨rfl, rfl⟩ := formatZ_eq_ok_iff.1 h; exact ⟨rfl, nofun⟩

/-- The decoder answers a command exactly on the command's header, with its operand on the W wires of A where its format has one. -/
theorem decode_eq_ok_iff {P : Params} {c : Command} {i : Instr} :
    decode P c = .ok i ↔ headerOf i = c.ch ∧ (usesOperand i = true → operandOf i = c.a % 2 ^ P.W) := by
  constructor
  · intro h
    simpa only [mkHeader_fields] using headerOf_of_decodeFields h
  · rintro ⟨hch, ha⟩
    rw [decode, ← hch]
    exact decodeFields_headerOf ha

/-- A command is well formed exactly when the operand its format uses fits the operand bus (R80, R84). -/
theorem wf_eq_true_iff {P : Params} {i : Instr} : i.wf P = true ↔ (usesOperand i = true → operandOf i < 2 ^ P.W) := by
  cases i <;> simp [Instr.wf, usesOperand, operandOf, operandFits]

/-- Settles O52: the encoder writes the command's own header, and the operand of a well-formed command fits the operand bus. -/
theorem decodeEncodeRoundTrip : Obligations.DecodeEncodeRoundTrip := fun _ _ hwf =>
  decode_eq_ok_iff.2 ⟨rfl, fun hu => (Nat.mod_eq_of_lt (wf_eq_true_iff.1 hwf hu)).symm⟩

/-- Settles O53, by `decode_eq_ok_iff` in both directions. -/
theorem encodeDecodeRoundTrip : Obligations.EncodeDecodeRoundTrip := by
  intro P c i h
  obtain ⟨hch, ha⟩ := decode_eq_ok_iff.1 h
  refine ⟨wf_eq_true_iff.2 fun hu => ?_, hch, ha, fun hu a => decode_eq_ok_iff.2 ⟨hch, fun hu' => ?_⟩⟩
  · rw [ha hu]
    exact Nat.mod_lt _ (Nat.two_pow_pos _)
  · rw [hu] at hu'
    cases hu'

end Sys2Proof.Machine
end

section
/-! The table of R86 as data: the decoder accepts exactly the headers that match a row, and no header matches two rows. -/

namespace Sys2Proof.Laws.HeaderInTable

/-- The header of every command is in the row of its mnemonic. -/
theorem holds : ∀ i : Instr, Statement i
  | .init => init
  | .rdstat => rdstat
  | .setver v => setver v
  | .setecl e => setecl e
  | .plClr => plClr
  | .plPush c => plPush c
  | .bsNew => bsNew
  | .bsBit b => bsBit b
  | .bsBits width value => bsBits width value
  | .bsLen => bsLen
  | .bsData index => bsData index
  | .classify => classify
  | .ccwN v => ccwN v
  | .ccwA v => ccwA v
  | .ccwB v => ccwB v
  | .ccwK v => ccwK v
  | .acb c => acb c
  | .encN => encN
  | .encA => encA
  | .encB => encB
  | .encK => encK
  | .encodeAuto => encodeAuto
  | .encodeN => encodeN
  | .encodeA => encodeA
  | .encodeB => encodeB
  | .encodeK => encodeK

end Sys2Proof.Laws.HeaderInTable

namespace Sys2Proof.Machine

theorem mkHeader_inj {op op' : BitVec 4} {b b' : BitVec 8} : mkHeader op b = mkHeader op' b' ↔ op = op' ∧ b = b' := by
  constructor
  · intro h
    exact ⟨by simpa using congrArg headerOp h, by simpa using congrArg headerImm h⟩
  · rintro ⟨rfl, rfl⟩
    rfl

/-- A row whose mask keeps op and the bits `mask` of b matches the headers with its op and its value in those bits. -/
theorem matches_fields {name : String} {op op' : BitVec 4} {b value mask : BitVec 8} :
    OpcodeRow.matches ⟨name, mkHeader op value, mkHeader 0xF#4 mask⟩ (mkHeader op' b) = true ↔ op' = op ∧ b &&& mask = value := by
  have hand : mkHeader op' b &&& mkHeader 0xF#4 mask = mkHeader (op' &&& BitVec.allOnes 4) (b &&& mask) := BitVec.and_append
  rw [OpcodeRow.matches, beq_iff_eq, hand, BitVec.and_allOnes, mkHeader_inj]

/-- A row legalises a header when its op decodes every b that has the row's value in the masked bits. -/
theorem legal_of_matches_fields {P : Params} {a : Nat} {ch : BitVec 12} {name : String} (op : BitVec 4) (value mask : BitVec 8)
    (hrow : ∀ b, b &&& mask = value → ∃ i, decodeFields op b (a % 2 ^ P.W) = .ok i)
    (h : OpcodeRow.matches ⟨name, mkHeader op value, mkHeader 0xF#4 mask⟩ ch = true) : ∃ i, decode P { ch := ch, a := a } = .ok i := by
  rw [← mkHeader_fields ch] at h ⊢
  obtain ⟨hop, hb⟩ := matches_fields.1 h
  rw [decode_mkHeader, hop]
  exact hrow _ hb

/-- A row without immediate bits has one header, its pattern. -/
theorem legal_of_matches_pattern {P : Params} {a : Nat} {ch pattern : BitVec 12} {name : String} {i : Instr}
    (hrow : decodeFields (headerOp pattern) (headerImm pattern) (a % 2 ^ P.W) = .ok i)
    (h : OpcodeRow.matches ⟨name, pattern, 0xFFF#12⟩ ch = true) :
    ∃ i, decode P { ch := ch, a := a } = .ok i := by
  have hall : ch &&& BitVec.allOnes 12 = pattern := beq_iff_eq.1 h
  rw [BitVec.and_allOnes] at hall
  exact ⟨i, by rw [decode, hall, hrow]⟩

/-- A byte that keeps to the reserved bits of format I2 holds a 2-bit immediate. -/
theorem exists_imm2_of_and {b : BitVec 8} (h : b &&& 0xFC#8 = 0#8) : ∃ e : BitVec 2, b = 0#6 ++ e := by
  have h0 : b.extractLsb' 2 6 = 0#6 := by revert b; decide
  exact ⟨_, eq_append_of_high (m := 6) h0⟩

/-- A byte that keeps to the reserved bits of format I1 holds a 1-bit immediate. -/
theorem exists_imm1_of_and {b : BitVec 8} (h : b &&& 0xFE#8 = 0#8) : ∃ e : BitVec 1, b = 0#7 ++ e := by
  have h0 : b.extractLsb' 1 7 = 0#7 := by revert b; decide
  exact ⟨_, eq_append_of_high (m := 7) h0⟩

/-- The decoder accepts every header that matches a row: row by row, in the order of R86. -/
theorem legal_of_row (P : Params) (ch : BitVec 12) (a : Nat) :
    ∀ r ∈ opcodeRows, r.matches ch = true → ∃ i, decode P { ch := ch, a := a } = .ok i := by
  simp only [opcodeRows, opcodeRowsLow, opcodeRowsHigh, List.cons_append, List.nil_append, List.forall_mem_cons]
  refine ⟨?init, ?rdstat, ?setver, ?setecl, ?plClr, ?plPush, ?bsNew, ?bsBit, ?bsBits, ?bsLen, ?bsData, ?classify, ?ccwN, ?ccwA, ?ccwB,
    ?ccwK, ?acb, ?encN, ?encA, ?encB, ?encK, ?encodeAuto, ?encodeN, ?encodeA, ?encodeB, ?encodeK, nofun⟩
  case setecl =>
    refine legal_of_matches_fields 0x3#4 0#8 0xFC#8 fun b hb => ?_
    obtain ⟨e, rfl⟩ := exists_imm2_of_and hb
    exact ⟨_, formatI2_append e _⟩
  case bsBit =>
    refine legal_of_matches_fields 0x7#4 0#8 0xFE#8 fun b hb => ?_
    obtain ⟨e, rfl⟩ := exists_imm1_of_and hb
    exact ⟨_, formatI1_append e _⟩
  case plPush => exact legal_of_matches_fields 0x5#4 0#8 0#8 fun _ _ => ⟨_, rfl⟩
  case bsBits => exact legal_of_matches_fields 0x8#4 0#8 0#8 fun _ _ => ⟨_, rfl⟩
  case acb => exact legal_of_matches_fields 0xD#4 0#8 0#8 fun _ _ => ⟨_, rfl⟩
  all_goals exact legal_of_matches_pattern rfl

/-- A header that decodes is in the row of its command's mnemonic. -/
theorem row_of_decode {P : Params} {c : Command} {i : Instr} (h : decode P c = .ok i) :
    ∃ r ∈ opcodeRows, r.matches c.ch = true ∧ r.mnemonic = mnemonicOf i := by
  obtain ⟨hch, -⟩ := decode_eq_ok_iff.1 h
  obtain ⟨r, hr, hname, hmatches⟩ := Laws.HeaderInTable.holds i
  exact ⟨r, hr, hch ▸ hmatches, hname⟩

theorem exists_decode_iff_exists_row {P : Params} {c : Command} :
    (∃ i, decode P c = .ok i) ↔ ∃ r ∈ opcodeRows, r.matches c.ch = true := by
  constructor
  · rintro ⟨i, h⟩
    obtain ⟨r, hr, hmatches, -⟩ := row_of_decode h
    exact ⟨r, hr, hmatches⟩
  · rintro ⟨r, hr, hmatches⟩
    exact legal_of_row P c.ch c.a r hr hmatches

/-- Two rows that match one header agree on the bits both masks keep. -/
theorem patterns_agree_of_matches {ch : BitVec 12} {r r' : OpcodeRow} (h : r.matches ch = true) (h' : r'.matches ch = true) :
    r.pattern &&& r'.mask = r'.pattern &&& r.mask := by
  rw [← beq_iff_eq.1 h, ← beq_iff_eq.1 h', BitVec.and_assoc, BitVec.and_assoc, BitVec.and_comm r.mask]

/-- Two different rows differ in a bit both masks keep. -/
theorem eq_of_patterns_agree :
    ∀ r ∈ opcodeRows, ∀ r' ∈ opcodeRows, r.pattern &&& r'.mask = r'.pattern &&& r.mask → r = r' := by
  decide

/-- Settles O50: the header of every command is in the table, every row decodes, and different rows differ where both masks keep. -/
theorem legalHeadersAreTheTableRows : Obligations.LegalHeadersAreTheTableRows :=
  ⟨fun _ _ => exists_decode_iff_exists_row, fun _ _ _ => row_of_decode,
    fun _ r r' hr hr' h h' => eq_of_patterns_agree r hr r' hr' (patterns_agree_of_matches h h')⟩

end Sys2Proof.Machine
end

section
/-! Illegal headers (R88): why a header is refused, and what a step does with it. -/

namespace Sys2Proof.Machine

/-- The value of a header in terms of its fields (R80). -/
theorem toNat_mkHeader (op : BitVec 4) (b : BitVec 8) : (mkHeader op b).toNat = 256 * op.toNat + b.toNat := by
  have happend : (mkHeader op b).toNat = op.toNat <<< 8 ||| b.toNat := BitVec.toNat_append op b
  rw [happend, ← Nat.shiftLeft_add_eq_or_of_lt b.isLt, Nat.shiftLeft_eq, Nat.mul_comm]

/-- The two reasons of R88: "a reserved bit of `b` that is 1, or an `msel` that is not one of the allowed codes". -/
def BadImm (b : BitVec 8) (e : DecodeError) : Prop :=
  (e = .reservedBits ∧ b ≠ 0#8) ∨ (e = .modeCode ∧ b.toNat < 16 ∧ b.toNat ∉ [1, 2, 4, 8])

theorem formatZ_error {b : BitVec 8} {i : Instr} {e : DecodeError} (h : formatZ b i = .error e) : e = .reservedBits ∧ b ≠ 0#8 := by
  unfold formatZ at h
  split at h
  · cases h
  · next hb => cases h; exact ⟨rfl, hb⟩

theorem formatI2_error {b : BitVec 8} {f : BitVec 2 → Instr} {e : DecodeError} (h : formatI2 b f = .error e) :
    e = .reservedBits ∧ b ≠ 0#8 := by
  unfold formatI2 at h
  split at h
  · cases h
  · next hb => cases h; exact ⟨rfl, by rintro rfl; exact hb rfl⟩

theorem formatI1_error {b : BitVec 8} {f : BitVec 1 → Instr} {e : DecodeError} (h : formatI1 b f = .error e) :
    e = .reservedBits ∧ b ≠ 0#8 := by
  unfold formatI1 at h
  split at h
  · cases h
  · next hb => cases h; exact ⟨rfl, by rintro rfl; exact hb rfl⟩

/-- An msel that reads as no mode is none of the four codes, whatever 4-bit number holds it. -/
theorem notMem_modeCodes {b : BitVec 8} (h0 : b.extractLsb' 4 4 = 0#4) (h : readModeCode (b.extractLsb' 0 4) = none) :
    b.toNat < 16 ∧ b.toNat ∉ [1, 2, 4, 8] := by
  revert b; decide

theorem formatM_error {b : BitVec 8} {f : EncodingMode → Instr} {e : DecodeError} (h : formatM b f = .error e) : BadImm b e := by
  unfold formatM at h
  split at h
  · next h0 =>
    split at h
    · cases h
    · next hm => cases h; exact .inr ⟨rfl, notMem_modeCodes h0 hm⟩
  · next h0 => cases h; exact .inl ⟨rfl, by rintro rfl; exact h0 rfl⟩

/-- Fields that decode to no command have a bad b; a mode code is missed only in the three ops that have one. -/
theorem decodeFields_error {op : BitVec 4} {b : BitVec 8} {a : Nat} {e : DecodeError} (h : decodeFields op b a = .error e) :
    BadImm b e ∧ (e = .modeCode → 0xC ≤ op.toNat) := by
  cases op using op_cases with
  | setecl => obtain ⟨rfl, hb⟩ := formatI2_error h; exact ⟨.inl ⟨rfl, hb⟩, nofun⟩
  | bsBit => obtain ⟨rfl, hb⟩ := formatI1_error h; exact ⟨.inl ⟨rfl, hb⟩, nofun⟩
  | plPush | bsBits | acb => cases h
  | ccw | enc => exact ⟨formatM_error h, fun _ => by decide⟩
  | encode =>
    rw [decodeFields_encode] at h
    split at h
    · cases h
    · exact ⟨formatM_error h, fun _ => by decide⟩
  | _ => obtain ⟨rfl, hb⟩ := formatZ_error h; exact ⟨.inl ⟨rfl, hb⟩, nofun⟩

/-- The reasons of R88 in terms of the header. -/
theorem decode_error {P : Params} {c : Command} {e : DecodeError} (h : decode P c = .error e) :
    (e = .reservedBits ∧ c.ch.toNat % 256 ≠ 0) ∨
    (e = .modeCode ∧ 0xC00 ≤ c.ch.toNat ∧ c.ch.toNat % 256 < 16 ∧ c.ch.toNat % 256 ∉ [1, 2, 4, 8]) := by
  obtain ⟨hbad, hop⟩ := decodeFields_error h
  have hch : c.ch.toNat = 256 * (headerOp c.ch).toNat + (headerImm c.ch).toNat := by rw [← toNat_mkHeader, mkHeader_fields]
  have hb : c.ch.toNat % 256 = (headerImm c.ch).toNat := by have := (headerImm c.ch).isLt; omega
  rw [hb]
  obtain ⟨rfl, hne⟩ | ⟨rfl, hlt, hmem⟩ := hbad
  · exact .inl ⟨rfl, fun h0 => hne (BitVec.eq_of_toNat_eq h0)⟩
  · have := hop rfl
    exact .inr ⟨rfl, by omega, hlt, hmem⟩

/-- "All sixteen `op` values are in use" (R88): each op has a row, whose pattern is a legal header. -/
theorem exists_pattern_of_op (op : BitVec 4) : ∃ r ∈ opcodeRows, headerOp r.pattern = op ∧ r.matches r.pattern = true := by
  revert op; decide

theorem exists_legal_header_of_op (P : Params) (op : BitVec 4) (a : Nat) :
    ∃ (b : BitVec 8) (i : Instr), decode P { ch := op ++ b, a := a } = .ok i := by
  obtain ⟨r, hr, hop, hmatches⟩ := exists_pattern_of_op op
  have hch : op ++ headerImm r.pattern = r.pattern := by rw [← hop]; exact mkHeader_fields r.pattern
  exact ⟨headerImm r.pattern, by rw [hch]; exact legal_of_row P r.pattern a r hr hmatches⟩

/-- The command at the head of the queue is taken and answered as an illegal one when its header matches no row (R88). -/
theorem step_illegal {s : State} {c : Command} {rest : List Input} (hq : s.queue = .command c :: rest)
    (hrow : ∀ r ∈ opcodeRows, r.matches c.ch = false) : step s = illegalCommand { s with queue := rest } := by
  cases hd : decode s.params c with
  | ok i =>
    obtain ⟨r, hr, hmatches, -⟩ := row_of_decode hd
    rw [hrow r hr] at hmatches
    cases hmatches
  | error e => simp only [step, hq, hd]

/-- Settles O41: the step runs `illegalCommand`, which raises fault 7 or refuses; the rest is about the decoder alone. -/
theorem illegalHeaderRaisesIllegalCommand : Obligations.IllegalHeaderRaisesIllegalCommand := by
  refine ⟨fun s c rest hf hq hrow => ?_, fun s c rest hf hq hrow => ?_, exists_legal_header_of_op, fun _ _ _ => decode_error⟩
  · rw [step_illegal hq hrow]
    exact unlessFaulted_normal hf
  · rw [step_illegal hq hrow]
    exact unlessFaulted_faulted hf

/-- Settles O49: the words are decoded bit by bit. -/
theorem decodeReadsSpecWords : Obligations.DecodeReadsSpecWords := by
  unfold Obligations.DecodeReadsSpecWords
  decide

end Sys2Proof.Machine
end

section
/-! The response a command leaves (R81). -/

namespace Sys2Proof.Machine

/-- A command that passes its checks answers (R81). -/
theorem Effect.exists_response {s t : State} {i : Instr} (h : Effect s i t) : ∃ r, t.rsp = some r := by
  cases h <;> exact ⟨_, rfl⟩

/-- Settles O43, by the four ways a command ends: FAULT is 0 after INIT and after an effect other than RDSTAT's, and d is 0 otherwise. -/
theorem responseCarriesFault : Obligations.ResponseCarriesFault := by
  intro i s t h
  cases exec_cases h with
  | restored _ ht => exact ⟨⟨0, 0⟩, by rw [ht]; rfl, by rw [ht]; rfl, fun _ _ => rfl⟩
  | refused _ _ _ ht => exact ⟨⟨s.fault, 0⟩, by rw [ht]; rfl, by rw [ht]; rfl, fun _ _ => rfl⟩
  | raised _ code _ ht => exact ⟨⟨faultBits code, 0⟩, by rw [ht]; rfl, by rw [ht]; rfl, fun _ _ => rfl⟩
  | done hf he =>
    obtain ⟨r, hr⟩ := he.exists_response
    have hrf : r.f = t.fault := he.response_fault hf r hr
    refine ⟨r, hr, hrf, fun hne hi => absurd ?_ hne⟩
    rw [hrf, he.fault_eq, hf.resolve_right hi]

end Sys2Proof.Machine
end

section
/-! The number of legal headers, counted over the rows of the table as R87 counts it: a row whose mask clears the low k bits has 2^k headers,
and no header is counted twice because the rows do not overlap. -/

namespace Sys2Proof.Machine

/-- The headers that match a row, as numbers. -/
def rowHeaders (r : OpcodeRow) : Finset Nat := {h ∈ Finset.range 4096 | r.matches (BitVec.ofNat 12 h) = true}

theorem mem_rowHeaders {r : OpcodeRow} {h : Nat} : h ∈ rowHeaders r ↔ h < 4096 ∧ r.matches (BitVec.ofNat 12 h) = true := by
  simp [rowHeaders]

/-- A mask that clears the low k bits rounds down to a multiple of 2^k. -/
theorem toNat_and_allOnes_shiftLeft {w : Nat} (ch : BitVec w) (k : Nat) :
    (ch &&& BitVec.allOnes w <<< k).toNat = ch.toNat / 2 ^ k * 2 ^ k := by
  have hround : ch &&& BitVec.allOnes w <<< k = ch >>> k <<< k := by
    ext i hi
    by_cases hik : i < k
    · simp [hik]
    · have : k + (i - k) = i := by omega
      simp [hik, hi, this]
  have hle : ch.toNat / 2 ^ k * 2 ^ k ≤ ch.toNat := Nat.div_mul_le_self ..
  rw [hround, BitVec.toNat_shiftLeft, BitVec.toNat_ushiftRight, Nat.shiftRight_eq_div_pow, Nat.shiftLeft_eq,
    Nat.mod_eq_of_lt (hle.trans_lt ch.isLt)]

/-- Every mask of the table clears the low bits of the header, and the pattern is 0 in them. -/
theorem exists_immediate_width : ∀ r ∈ opcodeRows, ∃ k ≤ 8, r.mask = BitVec.allOnes 12 <<< k ∧ r.mask.toNat = 4096 - 2 ^ k ∧
    2 ^ k ∣ r.pattern.toNat ∧ r.pattern.toNat + 2 ^ k ≤ 4096 := by
  decide

/-- The numbers that round down to a multiple of n are the n numbers from it on. -/
theorem div_mul_eq_iff_of_dvd {h n p : Nat} (hn : 0 < n) (hp : n ∣ p) : h / n * n = p ↔ p ≤ h ∧ h < p + n := by
  obtain ⟨q, rfl⟩ := hp
  rw [Nat.mul_comm n q, Nat.mul_left_inj hn.ne', Nat.div_eq_iff hn]
  omega

theorem card_rowHeaders {r : OpcodeRow} (hr : r ∈ opcodeRows) : (rowHeaders r).card = 4096 - r.mask.toNat := by
  obtain ⟨k, -, hmask, hsize, hdvd, hroom⟩ := exists_immediate_width r hr
  have hrange : rowHeaders r = Finset.Ico r.pattern.toNat (r.pattern.toNat + 2 ^ k) := by
    ext h
    rw [mem_rowHeaders, Finset.mem_Ico, OpcodeRow.matches, beq_iff_eq, ← BitVec.toNat_inj, hmask, toNat_and_allOnes_shiftLeft,
      div_mul_eq_iff_of_dvd (Nat.two_pow_pos k) hdvd, BitVec.toNat_ofNat]
    omega
  rw [hrange, Nat.card_Ico]
  omega

/-- No header is in two rows (R86). -/
theorem disjoint_rowHeaders : (opcodeRows.toFinset : Set OpcodeRow).PairwiseDisjoint rowHeaders := by
  intro r hr r' hr' hne
  refine Finset.disjoint_left.2 fun h hh hh' => hne ?_
  exact eq_of_patterns_agree r (List.mem_toFinset.1 hr) r' (List.mem_toFinset.1 hr')
    (patterns_agree_of_matches (mem_rowHeaders.1 hh).2 (mem_rowHeaders.1 hh').2)

theorem isOk_eq_true_iff {r : Except DecodeError Instr} : r.isOk = true ↔ ∃ i, r = .ok i := by
  cases r <;> simp [Except.isOk, Except.toBool]

/-- The legal headers are those of the rows, whatever the operand. -/
theorem filter_isOk_decode (P : Params) (a : Nat) :
    {h ∈ Finset.range 4096 | (decode P { ch := BitVec.ofNat 12 h, a := a }).isOk = true} = opcodeRows.toFinset.biUnion rowHeaders := by
  ext h
  simp only [Finset.mem_filter, Finset.mem_range, isOk_eq_true_iff, exists_decode_iff_exists_row, Finset.mem_biUnion,
    List.mem_toFinset, mem_rowHeaders]
  constructor
  · rintro ⟨hlt, r, hr, hmatches⟩
    exact ⟨r, hr, hlt, hmatches⟩
  · rintro ⟨r, hr, hlt, hmatches⟩
    exact ⟨hlt, r, hr, hmatches⟩

/-- Settles O51: the count is the sum of the rows' sizes, 21 rows of one header, three of 256, one of 4 and one of 2. -/
theorem legalHeaderCount : Obligations.LegalHeaderCount := by
  unfold Obligations.LegalHeaderCount
  calc
    _ = Nat.count (fun h => (decode Config.given { ch := BitVec.ofNat 12 h, a := 0 }).isOk = true) 4096 := by
      simp only [Nat.count, Bool.decide_eq_true]
    _ = (opcodeRows.toFinset.biUnion rowHeaders).card := by rw [Nat.count_eq_card_filter_range, filter_isOk_decode]
    _ = ∑ r ∈ opcodeRows.toFinset, (rowHeaders r).card := Finset.card_biUnion disjoint_rowHeaders
    _ = ∑ r ∈ opcodeRows.toFinset, (4096 - r.mask.toNat) :=
      Finset.sum_congr rfl fun _ hr => card_rowHeaders (List.mem_toFinset.1 hr)
    _ = 795 := by decide

end Sys2Proof.Machine
end

section
/-! Appending to the stream by words (R117): an append that stays inside one word fills bits of that word, and an append that straddles fills
the rest of one word and the front of the next. -/

namespace Sys2Proof.Machine

/-- Only the last of two writes to one address counts. -/
theorem Memory.write_write {α : Type} (m : Memory α) (a : Nat) (v w : α) : (m.write a v).write a w = m.write a w := by
  induction m with
  | nil => simp [write]
  | cons e m ih =>
    obtain ⟨k, x⟩ := e
    rcases Nat.lt_trichotomy a k with h | rfl | h
    · simp [write, h]
    · simp [write]
    · simp [write, h.not_gt, h.ne', ih]

/-- Writing what is read there changes nothing. -/
theorem Memory.write_eq_self {α : Type} {m : Memory α} (h : m.wf) {a : Nat} {v : α} (hv : m.read a = some v) : m.write a v = m := by
  have hmem : a ∈ m.map Prod.fst := (read_isSome_iff m a).mp (by simp [hv])
  refine ext_of_read (write_wf h a v) (keys_write_of_mem h hmem v) fun b => ?_
  rw [read_write]
  split
  · next hb => rw [hb, hv]
  · rfl

/-- The word at the append point after the growth of R113: 0 where a new word begins, else the word that is listed. -/
def AppendWord (W : Nat) (st : BitStream) (w : Nat) : Prop :=
  if st.blen % W = 0 then w = 0 else st.bw.read (st.blen / W) = some w

/-- A well-formed stream has a word at its append point. -/
theorem exists_appendWord {W : Nat} {st : BitStream} (hW : 0 < W) (h : StreamWf W st) : ∃ w, AppendWord W st w := by
  obtain ⟨hkeys, -⟩ := h
  unfold AppendWord
  split
  · exact ⟨0, rfl⟩
  · next h0 =>
    refine Option.isSome_iff_exists.mp ((Memory.read_isSome_of_keys hkeys _).mpr ?_)
    rw [ceilDiv_eq hW, if_neg h0]
    exact Nat.lt_succ_self _

/-- The stream after the low n bits of v are added to w, the word at the append point, right below the bits it holds (R117). -/
def fillWord (W w v n : Nat) (st : BitStream) : BitStream :=
  { blen := st.blen + n, bw := st.bw.write (st.blen / W) (w + v % 2 ^ n * 2 ^ (W - st.blen % W - n)) }

theorem fillWord_memory_wf {W w v n : Nat} {st : BitStream} (h : st.bw.wf) : (fillWord W w v n st).bw.wf :=
  Memory.write_wf h _ _

/-- Moving on inside a word (R23). -/
theorem add_div_mod_of_lt {n W k : Nat} (h : n % W + k < W) : (n + k) / W = n / W ∧ (n + k) % W = n % W + k := by
  have hn : n + k = (n % W + k) + W * (n / W) := by have := Nat.div_add_mod n W; omega
  rw [hn, Nat.add_mul_div_left _ _ (by omega), Nat.add_mul_mod_self_left, Nat.div_eq_of_lt h, Nat.mod_eq_of_lt h, Nat.zero_add]
  exact ⟨rfl, rfl⟩

/-- Moving on to the next word (R23). -/
theorem add_div_mod_of_eq {n W k : Nat} (hW : 0 < W) (h : n % W + k = W) : (n + k) / W = n / W + 1 ∧ (n + k) % W = 0 := by
  have hn : n + k = W * (n / W + 1) := by have := Nat.div_add_mod n W; rw [Nat.mul_add]; omega
  rw [hn, Nat.mul_div_cancel_left _ hW, Nat.mul_mod_right]
  exact ⟨rfl, rfl⟩

/-- A word that is not full yet is the word at the next append point. -/
theorem appendWord_fillWord_of_lt {W w v n : Nat} {st : BitStream} (hn : 0 < n) (h : st.blen % W + n < W) :
    AppendWord W (fillWord W w v n st) (w + v % 2 ^ n * 2 ^ (W - st.blen % W - n)) := by
  obtain ⟨hdiv, hmod⟩ := add_div_mod_of_lt h
  rw [AppendWord, fillWord, hdiv, hmod, if_neg (by omega), Memory.read_write_same]

/-- After a word is full the next append begins a new one. -/
theorem appendWord_fillWord_of_eq {W w v n : Nat} {st : BitStream} (hW : 0 < W) (h : st.blen % W + n = W) :
    AppendWord W (fillWord W w v n st) 0 := by
  rw [AppendWord, fillWord, if_pos (add_div_mod_of_eq hW h).2]

/-- Filling in two goes inside one word is filling once: the high bits, then the low bits. -/
theorem fillWord_fillWord {W w v a b : Nat} {st : BitStream} (hb : 0 < b) (h : st.blen % W + (a + b) ≤ W) :
    fillWord W (w + v / 2 ^ b % 2 ^ a * 2 ^ (W - st.blen % W - a)) v b (fillWord W w (v / 2 ^ b) a st) =
      fillWord W w v (a + b) st := by
  obtain ⟨hdiv, hmod⟩ := add_div_mod_of_lt (show st.blen % W + a < W by omega)
  obtain ⟨c, hc⟩ : ∃ c, W - st.blen % W = a + b + c := ⟨W - st.blen % W - (a + b), by omega⟩
  have hvalue : v % 2 ^ (a + b) * 2 ^ c = v / 2 ^ b % 2 ^ a * 2 ^ (b + c) + v % 2 ^ b * 2 ^ c := by
    rw [Nat.add_comm a b, pow_add, Nat.mod_mul]; ring
  have hhigh : W - st.blen % W - a = b + c := by omega
  have hlow : W - (st.blen % W + a) - b = c := by omega
  have hall : W - st.blen % W - (a + b) = c := by omega
  simp only [fillWord, hdiv, hmod, Memory.write_write, hhigh, hlow, hall, hvalue, Nat.add_assoc]

/-- Appending one bit fills one bit of the word at the append point (R114). -/
theorem appendBit_eq_fillWord {W w : Nat} {st : BitStream} (hm : st.bw.wf) (hw : AppendWord W st w) (v : Nat) :
    appendBit W (bitOf v 0) st = some (fillWord W w v 1 st) := by
  have hv : v % 2 ^ 1 = (bitOf v 0).toNat := by simp [bitOf_toNat]
  rw [fillWord, hv]
  unfold AppendWord at hw
  split at hw
  · next h0 =>
    subst hw
    cases bitOf v 0 <;> simp [appendBit, h0, Memory.write_write]
  · next h0 =>
    cases bitOf v 0
    · simp [appendBit, h0, Memory.write_eq_self hm hw]
    · simp [appendBit, h0, hw, Nat.sub_right_comm]

/-- Appending a value of width 1 is appending its lowest bit (R122). -/
theorem appendBits_width_one (W v : Nat) (st : BitStream) : appendBits W v 1 st = appendBit W (bitOf v 0) st := by
  simp only [appendBits]
  cases appendBit W (bitOf v 0) st <;> rfl

/-- An append can be cut in two: the high bits, then the low bits (R115). -/
theorem appendBits_add (W v a b : Nat) (st : BitStream) :
    appendBits W v (a + b) st = (appendBits W (v / 2 ^ b) a st).bind (appendBits W v b) := by
  induction a generalizing st with
  | zero => rw [Nat.zero_add]; rfl
  | succ a ih =>
    rw [Nat.succ_add]
    simp only [appendBits, bitOf_div_two_pow, Nat.add_comm b a]
    cases appendBit W (bitOf v (a + b)) st with
    | none => rfl
    | some st' => exact ih st'

/-- The bit-by-bit append inside one word fills that word: the top bit, then the rest. -/
theorem appendBits_eq_fillWord {W w v n : Nat} {st : BitStream} (hm : st.bw.wf) (hw : AppendWord W st w)
    (hn : st.blen % W + (n + 1) ≤ W) : appendBits W v (n + 1) st = some (fillWord W w v (n + 1) st) := by
  induction n generalizing st w with
  | zero => rw [appendBits_width_one, appendBit_eq_fillWord hm hw]
  | succ n ih =>
    have hmod : (st.blen + 1) % W = st.blen % W + 1 := (add_div_mod_of_lt (by omega)).2
    rw [Nat.add_comm (n + 1) 1, appendBits_add, appendBits_width_one, appendBit_eq_fillWord hm hw, Option.bind_some,
      ih (fillWord_memory_wf hm) (appendWord_fillWord_of_lt one_pos (by omega)) (by rw [fillWord, hmod]; omega),
      fillWord_fillWord (by omega) (by omega)]

/-- The word-parallel append inside one word fills that word. -/
theorem appendBitsWordwise_eq_fillWord {W w v n : Nat} {st : BitStream} (hw : AppendWord W st w) (hn : st.blen % W + (n + 1) ≤ W) :
    appendBitsWordwise W v (n + 1) st = some (fillWord W w v (n + 1) st) := by
  unfold AppendWord at hw
  split at hw
  · next h0 => simp [appendBitsWordwise, fillWord, h0, hw]
  · next h0 => simp [appendBitsWordwise, fillWord, h0, hw, show n + 1 ≤ W - st.blen % W by omega]

/-- The bit-by-bit append of a packet that straddles two words. -/
theorem appendBits_straddling {W w v a b : Nat} {st : BitStream} (hm : st.bw.wf) (hw : AppendWord W st w)
    (ha : st.blen % W + (a + 1) = W) (hb : b + 1 ≤ W) :
    appendBits W v (a + 1 + (b + 1)) st = some (fillWord W 0 v (b + 1) (fillWord W w (v / 2 ^ (b + 1)) (a + 1) st)) := by
  have hmod : (st.blen + (a + 1)) % W = 0 := (add_div_mod_of_eq (by omega) ha).2
  rw [appendBits_add, appendBits_eq_fillWord hm hw ha.le, Option.bind_some,
    appendBits_eq_fillWord (fillWord_memory_wf hm) (appendWord_fillWord_of_eq (by omega) ha) (by rw [fillWord, hmod]; omega)]

/-- The word-parallel append of a packet that straddles two words. -/
theorem appendBitsWordwise_straddling {W w v a b : Nat} {st : BitStream} (h0 : st.blen % W ≠ 0) (hw : AppendWord W st w)
    (ha : st.blen % W + a = W) (hb : 0 < b) :
    appendBitsWordwise W v (a + b) st = some (fillWord W 0 v b (fillWord W w (v / 2 ^ b) a st)) := by
  rw [AppendWord, if_neg h0] at hw
  obtain ⟨hdiv, hmod⟩ := add_div_mod_of_eq (by omega) ha
  have hfree : W - st.blen % W = a := by omega
  have hhigh : v % 2 ^ (a + b) / 2 ^ b = v / 2 ^ b % 2 ^ a := by rw [Nat.add_comm, pow_add, Nat.mod_mul_right_div_self]
  have hlow : v % 2 ^ (a + b) % 2 ^ b = v % 2 ^ b := Nat.mod_mod_of_dvd _ (pow_dvd_pow 2 (Nat.le_add_left b a))
  simp [appendBitsWordwise, fillWord, h0, hw, hmod, hdiv, hfree, hhigh, hlow, Nat.add_assoc, hb.ne']

/-- Settles O15, by where the packet ends: it has no bits, it stays inside one word, or it straddles two. -/
theorem wordwiseAppendEqualsBitwise : Obligations.WordwiseAppendEqualsBitwise := by
  intro W v width st hW hwidth hst
  obtain ⟨w, hw⟩ := exists_appendWord hW hst
  obtain ⟨hkeys, -⟩ := hst
  have hm := Memory.wf_of_keys hkeys
  have hlt := Nat.mod_lt st.blen hW
  obtain _ | n := width
  · rfl
  · rcases Nat.lt_or_ge W (st.blen % W + (n + 1)) with hn | hn
    · obtain ⟨a, ha⟩ : ∃ a, st.blen % W + (a + 1) = W := ⟨W - st.blen % W - 1, by omega⟩
      obtain ⟨b, rfl⟩ : ∃ b, n = a + 1 + b := ⟨n - (a + 1), by omega⟩
      rw [Nat.add_assoc (a + 1), appendBitsWordwise_straddling (by omega) hw ha b.succ_pos, appendBits_straddling hm hw ha (by omega)]
    · rw [appendBitsWordwise_eq_fillWord hw hn, appendBits_eq_fillWord hm hw hn]

end Sys2Proof.Machine
end

section
/-! The stream commands in normal state (R119 to R124), and that BS.BITS is a run of BS.BIT (R122). -/

namespace Sys2Proof.Machine

/-- A header from its number: op is its hundreds in hexadecimal (R80). -/
theorem ofNat_eq_mkHeader (op : BitVec 4) (b : BitVec 8) : BitVec.ofNat 12 (256 * op.toNat + b.toNat) = mkHeader op b := by
  rw [← toNat_mkHeader, BitVec.ofNat_toNat, BitVec.setWidth_eq]

/-- The header of BS.BIT (R120). -/
theorem headerOf_bsBit (b : BitVec 1) : headerOf (.bsBit b) = BitVec.ofNat 12 (0x700 + b.toNat) := by
  revert b; decide

/-- The header of BS.BITS (R121). -/
theorem headerOf_bsBits (width : BitVec 8) (v : Nat) : headerOf (.bsBits width v) = BitVec.ofNat 12 (0x800 + width.toNat) :=
  (ofNat_eq_mkHeader 0x8#4 width).symm

/-- A command without an operand is decoded from its header whatever A is (R84). -/
theorem decode_of_ignoresOperand {P : Params} {ch : BitVec 12} {a : Nat} {i : Instr} (hu : usesOperand i = false)
    (hch : headerOf i = ch) : decode P { ch := ch, a := a } = .ok i :=
  decode_eq_ok_iff.2 ⟨hch, fun h => by rw [hu] at h; cases h⟩

/-- A command with an operand is decoded from its header and its operand, when that fits the operand bus (R84). -/
theorem decode_of_operand {P : Params} {ch : BitVec 12} {i : Instr} (hch : headerOf i = ch) (ha : operandOf i < 2 ^ P.W) :
    decode P { ch := ch, a := operandOf i } = .ok i :=
  decode_eq_ok_iff.2 ⟨hch, fun _ => (Nat.mod_eq_of_lt ha).symm⟩

/-- Settles O8: in normal state BS.NEW is its own rule. -/
theorem bsNewEmptiesStream : Obligations.BsNewEmptiesStream :=
  ⟨fun _ _ => decode_of_ignoresOperand rfl rfl, fun _ hf => unlessFaulted_normal hf⟩

/-- Settles O11: in normal state BS.LEN is its own rule. -/
theorem bsLenReturnsLength : Obligations.BsLenReturnsLength :=
  ⟨fun _ _ => decode_of_ignoresOperand rfl rfl, fun _ hf => exec_bsLen hf⟩

/-- BS.DATA in normal state past the architectural words (R124). -/
theorem exec_bsData_bad {s : State} {j : Nat} (hf : s.fault = 0) (hj : s.nwords ≤ j) :
    exec (.bsData j) s = .next (s.raised .badOperand) :=
  (unlessFaulted_normal hf).trans (withStreamWord_bad hj)

/-- The bits of an architectural word are the string from W times its index on, with 0 past the end (R23). -/
theorem bitOf_word_eq_getD {W : Nat} {st : BitStream} {l : Bits} {j w q : Nat} (h : StreamWf W st) (hl : streamBits W st = some l)
    (hj : j < ceilDiv st.blen W) (hw : st.bw.read j = some w) (hq : q < W) : bitOf w (W - 1 - q) = l.getD (j * W + q) false := by
  have hdiv : (j * W + q) / W = j := Nat.div_eq_of_lt_le (by omega) (by rw [Nat.add_mul]; omega)
  have hmod : (j * W + q) % W = q := by rw [Nat.mul_add_mod_self_right, Nat.mod_eq_of_lt hq]
  have hpos : j * W + q < ceilDiv st.blen W * W := by
    have := Nat.mul_le_mul_right W (Nat.succ_le_of_lt hj)
    rw [Nat.succ_mul] at this
    omega
  have hbit := (bitAt_of_read (hdiv.symm ▸ hw)).symm.trans (bitAt_eq_getD h hl hpos)
  rwa [hmod, Option.some.injEq] at hbit

/-- Settles O12: the word is listed below NWORDS, and the stream's padding is 0. -/
theorem bsDataReturnsWordOrFaults : Obligations.BsDataReturnsWordOrFaults := by
  refine ⟨fun P j hj => decode_of_operand (i := .bsData j) rfl hj, fun s j hf hj => exec_bsData_bad hf hj,
    fun s j l hf _ hst hl hj => ?_⟩
  have ⟨hkeys, _⟩ := hst
  obtain ⟨w, hw⟩ := Option.isSome_iff_exists.mp ((Memory.read_isSome_of_keys hkeys j).mpr hj)
  exact ⟨w, exec_bsData hf hj hw, hw, fun q hq => bitOf_word_eq_getD hst hl hj hw hq⟩

/-- BS.BIT in normal state with room (R120). -/
theorem exec_bsBit_ok {s : State} {b : BitVec 1} {st : BitStream} (hf : s.fault = 0) (hroom : s.stream.blen + 1 ≤ s.params.maxBits)
    (happ : appendBit s.params.W (imm1Bit b) s.stream = some st) :
    exec (.bsBit b) s = .next { s with stream := st, segv := false, rsp := some { f := 0, d := st.blen } } := by
  rw [exec, execBsBit, unlessFaulted_normal hf, withRoom_ok hroom, happ]
  rfl

theorem exec_bsBit_full {s : State} {b : BitVec 1} (hf : s.fault = 0) (hroom : s.params.maxBits < s.stream.blen + 1) :
    exec (.bsBit b) s = .next (s.raised .streamOverflow) :=
  (unlessFaulted_normal hf).trans (withRoom_full hroom)

/-- BS.BITS in normal state with room, of a width the block has (R121). -/
theorem exec_bsBits_ok {s : State} {width : BitVec 8} {v : Nat} {st : BitStream} (hf : s.fault = 0)
    (hwidth : width.toNat ≤ s.params.W) (hroom : s.stream.blen + width.toNat ≤ s.params.maxBits)
    (happ : appendBits s.params.W v width.toNat s.stream = some st) :
    exec (.bsBits width v) s = .next { s with stream := st, segv := false, rsp := some { f := 0, d := st.blen } } := by
  rw [exec, execBsBits, unlessFaulted_normal hf, imm8Nat, withWidth_ok hwidth, withRoom_ok hroom, happ]
  rfl

theorem exec_bsBits_bad {s : State} {width : BitVec 8} {v : Nat} (hf : s.fault = 0) (hwidth : s.params.W < width.toNat) :
    exec (.bsBits width v) s = .next (s.raised .badOperand) :=
  (unlessFaulted_normal hf).trans (withWidth_bad hwidth)

theorem exec_bsBits_full {s : State} {width : BitVec 8} {v : Nat} (hf : s.fault = 0) (hwidth : width.toNat ≤ s.params.W)
    (hroom : s.params.maxBits < s.stream.blen + width.toNat) : exec (.bsBits width v) s = .next (s.raised .streamOverflow) :=
  (unlessFaulted_normal hf).trans ((withWidth_ok hwidth).trans (withRoom_full hroom))

/-- An append leaves the words past the new end alone: neither stream lists them (R22). -/
theorem read_eq_of_ceilDiv_le {W a : Nat} {st st' : BitStream} (h : StreamWf W st) (h' : StreamWf W st') (hlen : st.blen ≤ st'.blen)
    (ha : ceilDiv st'.blen W ≤ a) : st'.bw.read a = st.bw.read a := by
  obtain ⟨hkeys, -⟩ := h
  obtain ⟨hkeys', -⟩ := h'
  have hgrow : ceilDiv st.blen W ≤ ceilDiv st'.blen W := Nat.div_le_div_right (by omega)
  rw [Memory.read_none_of_keys hkeys (hgrow.trans ha), Memory.read_none_of_keys hkeys' ha]

/-- Settles O9: the append of one bit changes no word below the one it is put in, and no word above is architectural. -/
theorem bsBitAppendsOneBit : Obligations.BsBitAppendsOneBit := by
  refine ⟨fun P a b => decode_of_ignoresOperand rfl (headerOf_bsBit b), fun s b l hf hW hst hl hroom => ?_,
    fun s b hf hroom => exec_bsBit_full hf hroom⟩
  obtain ⟨st, happ, hwf, hlen, hbits, hbelow⟩ := appendBit_bits hW hst hl (imm1Bit b)
  refine ⟨st, hlen ▸ exec_bsBit_ok hf hroom happ, hlen, hwf, hbits, fun a ha => ?_⟩
  rcases Nat.lt_or_gt_of_ne ha with hlt | hgt
  · exact hbelow a hlt
  · exact read_eq_of_ceilDiv_le hst hwf (by omega) (by rwa [hlen, ceilDiv_succ hW])

/-- Settles O10, check by check; where all pass, the bits appended are those of the value mod 2^width. -/
theorem bsBitsAppendsLowBits : Obligations.BsBitsAppendsLowBits := by
  refine ⟨fun P v width hv => decode_of_operand (headerOf_bsBits width v) hv, fun s width v hf hwidth => exec_bsBits_bad hf hwidth,
    fun s width v hf hwidth hroom => exec_bsBits_full hf hwidth hroom, fun s width v l hf hW hst hl hwidth hroom => ?_⟩
  obtain ⟨st, happ, hwf, hlen, hbits, hbelow⟩ := appendBits_bits hW v width.toNat hst hl
  refine ⟨st, hlen ▸ exec_bsBits_ok hf hwidth hroom happ, hlen, hwf, by rwa [bin_mod], ?_, fun a ha => ?_⟩
  · rintro rfl
    exact (Option.some.inj happ).symm
  · rcases ha with hlt | hge
    · exact hbelow a hlt
    · exact read_eq_of_ceilDiv_le hst hwf (by omega) (by rwa [hlen])

@[simp] theorem imm1Bit_ofBool (b : Bool) : imm1Bit (BitVec.ofBool b) = b := by
  cases b <;> rfl

/-- An appended bit makes the stream one bit longer, in every state. -/
theorem appendBit_blen {W : Nat} {b : Bool} {st st' : BitStream} (h : appendBit W b st = some st') : st'.blen = st.blen + 1 := by
  simp only [appendBit] at h
  split at h <;> cases h <;> rfl

/-- Where the bits of a value can be appended and fit, the BS.BIT commands of these bits do it (R115, R122). -/
theorem runAll_bsBit {v w : Nat} {s : State} {st : BitStream} (hf : s.fault = 0) (hroom : s.stream.blen + w ≤ s.params.maxBits)
    (happ : appendBits s.params.W v w s.stream = some st) :
    ∃ u, runAll ((bin w v).map fun b => .bsBit (BitVec.ofBool b)) s = .next u ∧ u.stream = st := by
  induction w generalizing s with
  | zero => exact ⟨s, rfl, Option.some.inj happ⟩
  | succ w ih =>
    rw [appendBits] at happ
    split at happ
    · next st1 h1 =>
      have hlen := appendBit_blen h1
      have hexec := exec_bsBit_ok (b := BitVec.ofBool (bitOf v w)) hf (by omega) (by rwa [imm1Bit_ofBool])
      rw [bin_succ, List.map_cons, runAll, hexec]
      exact ih hf (by dsimp only; omega) happ
    · cases happ

/-- BS.BITS of width 1 is BS.BIT of the lowest bit, in fault state and with no room too (R122). -/
theorem exec_bsBits_one {s : State} (hW : 0 < s.params.W) (v : Nat) :
    exec (.bsBits 1#8 v) s = exec (.bsBit (BitVec.ofBool (bitOf v 0))) s := by
  rw [exec, exec, execBsBits, execBsBit, imm1Bit_ofBool, show imm8Nat 1#8 = 1 from rfl, withWidth_ok hW, appendBits_width_one]

/-- Settles O16: both sides make the stream of `appendBits`. -/
theorem bsBitsEqualsRepeatedBsBit : Obligations.BsBitsEqualsRepeatedBsBit := by
  refine ⟨fun s width v hf hW hst hwidth hroom => ?_, fun s v hW => exec_bsBits_one hW v⟩
  obtain ⟨l, hl⟩ := Option.isSome_iff_exists.mp (streamBits_isSome hW hst)
  obtain ⟨st, happ, -⟩ := appendBits_bits hW v width.toNat hst hl
  obtain ⟨u, hrun, hu⟩ := runAll_bsBit hf hroom happ
  exact ⟨_, u, exec_bsBits_ok hf hwidth hroom happ, hrun, hu.symm⟩

end Sys2Proof.Machine
end

section
/-! The classifier and CLASSIFY (R131 to R136), and that the mode the classifier answers meets its encoder's precondition (R138). -/

namespace Sys2Proof.Machine

/-- Every digit is in the Alphanumeric set: its codebook value is the first branch of the ROM (R131, R132, R151). -/
theorem inAlphanumericSet_of_inNumericSet {c : Byte} (h : inNumericSet c = true) : inAlphanumericSet c = true := by
  rw [← isAlnum_eq_inAlphanumericSet, isAlnum, acbRom, if_pos (of_decide_eq_true h)]
  rfl

/-- The hardware's tests are the alphabets of R131 and R132, so the classifier answers the narrowest capable mode (R130, R134). -/
theorem classifyBytes_eq_narrowestMode (p : List Byte) : classifyBytes p = narrowestMode p := by
  rw [classifyBytes, funext isAlnum_eq_inAlphanumericSet]
  rfl

theorem narrowestMode_of_numeric {p : List Byte} (h : ∀ c ∈ p, inNumericSet c = true) : narrowestMode p = .numeric :=
  if_pos (List.all_eq_true.2 h)

theorem narrowestMode_of_alphanumeric {p : List Byte} (hnum : ∃ c ∈ p, inNumericSet c = false)
    (h : ∀ c ∈ p, inAlphanumericSet c = true) : narrowestMode p = .alphanumeric := by
  have hnotnum : ¬ meetsAlphabet .numeric p = true := by simpa [meetsAlphabet] using hnum
  exact (if_neg hnotnum).trans (if_pos (List.all_eq_true.2 h))

theorem narrowestMode_of_byteText {p : List Byte} (h : ∃ c ∈ p, inAlphanumericSet c = false) : narrowestMode p = .byteText := by
  have halnum : ¬ meetsAlphabet .alphanumeric p = true := by simpa [meetsAlphabet] using h
  have hnum : ¬ meetsAlphabet .numeric p = true := fun hall =>
    halnum (List.all_eq_true.2 fun c hc => inAlphanumericSet_of_inNumericSet (List.all_eq_true.1 hall c hc))
  rw [narrowestMode, if_neg hnum, if_neg halnum]

/-- The narrowest mode is chosen by its own precondition (R134). -/
theorem meetsAlphabet_narrowestMode (p : List Byte) : meetsAlphabet (narrowestMode p) p = true := by
  unfold narrowestMode
  split
  · assumption
  · split
    · assumption
    · rfl

/-- A payload that meets the mode's precondition is one that the encoder accepts (R162, R166, R167). -/
theorem exists_packetsOf_of_meetsAlphabet {m : SegmentMode} {p : List Byte} (h : meetsAlphabet m p = true) :
    ∃ ps, packetsOf m p = .ok ps := by
  cases m with
  | numeric =>
    obtain ⟨ds, -, hok⟩ := packetsOf_numeric_ok (p := p) h
    exact ⟨_, hok⟩
  | alphanumeric =>
    have hall : p.all isAlnum = true := by rwa [funext isAlnum_eq_inAlphanumericSet]
    obtain ⟨vs, -, hok⟩ := packetsOf_alphanumeric_ok hall
    exact ⟨_, hok⟩
  | byteText => exact ⟨_, rfl⟩

/-- The classifier's mode meets its encoder's precondition (R138). -/
theorem meetsAlphabet_classifyBytes (p : List Byte) : meetsAlphabet (classifyBytes p) p = true := by
  rw [classifyBytes_eq_narrowestMode]
  exact meetsAlphabet_narrowestMode p

/-- The encoder of the classifier's mode finds no alphabet fault (R138). -/
theorem exists_packetsOf_classifyBytes (p : List Byte) : ∃ ps, packetsOf (classifyBytes p) p = .ok ps :=
  exists_packetsOf_of_meetsAlphabet (meetsAlphabet_classifyBytes p)

/-- CLASSIFY in normal state (R135). -/
theorem exec_classify {s : State} {p : List Byte} (hf : s.fault = 0) (hp : s.payload = some p) :
    exec .classify s = .next { s with mode := segmentCode (narrowestMode p)
                                      segv := false
                                      rsp := some { f := 0, d := (segmentCode (narrowestMode p)).toNat } } := by
  rw [← classifyBytes_eq_narrowestMode]
  exact (unlessFaulted_normal hf).trans (withPayload_some hp)

/-- The faults of ENCODE.AUTO are those of R188: no version, or no room. -/
theorem Raises.code_of_encodeAuto {s : State} {code : FaultCode} (h : Raises s .encodeAuto code) :
    code = .badOperand ∨ code = .streamOverflow := by
  cases h with
  | widthVersion hi => cases hi
  | encAlphabet hi => cases hi
  | encNoRoom hi => cases hi
  | encodeUnset => exact .inl rfl
  | @encodeAlphabet _ _ p _ hi _ _ herr =>
    cases hi
    obtain ⟨ps, hok⟩ := exists_packetsOf_classifyBytes p
    rw [hok] at herr
    cases herr
  | encodeNoRoom => exact .inr rfl

/-- From a normal state ENCODE.AUTO ends in normal state, in StreamOverflow or in BadOperand (R188). -/
theorem exec_encodeAuto_fault {s t : State} (hf : s.fault = 0) (h : exec .encodeAuto s = .next t) :
    t.fault = 0 ∨ t.fault = 4 ∨ t.fault = 6 := by
  cases exec_cases h with
  | restored hi => cases hi
  | refused hf' => exact absurd hf hf'
  | raised _ code hr ht =>
    rw [ht, State.raised_fault]
    obtain rfl | rfl := hr.code_of_encodeAuto
    · exact .inr (.inr rfl)
    · exact .inr (.inl rfl)
  | done _ he => exact .inl (he.fault_eq.trans hf)

/-- Settles O23: MODE becomes the code of the narrowest capable mode. -/
theorem classifySelectsNarrowestMode : Obligations.ClassifySelectsNarrowestMode := by
  refine ⟨fun _ _ => decode_of_ignoresOperand rfl rfl, fun s p hf hp =>
    ⟨segmentCode (narrowestMode p), exec_classify hf hp, fun hnum => ?_, fun hnum halnum => ?_, fun halnum => ?_⟩⟩
  · rw [narrowestMode_of_numeric hnum]; rfl
  · rw [narrowestMode_of_alphanumeric hnum halnum]; rfl
  · rw [narrowestMode_of_byteText halnum]; rfl

/-- Settles O24: ENCODE.AUTO encodes in the classifier's mode, whose encoder accepts the payload. -/
theorem classifierGuaranteesAlphabet : Obligations.ClassifierGuaranteesAlphabet := by
  refine ⟨fun p => ⟨classifyBytes_eq_narrowestMode p, meetsAlphabet_classifyBytes p, exists_packetsOf_classifyBytes p⟩,
    fun s t hf h => ?_⟩
  obtain h0 | h4 | h6 := exec_encodeAuto_fault hf h
  · rw [h0]; decide
  · rw [h4]; decide
  · rw [h6]; decide

end Sys2Proof.Machine
end

section
/-! CCW.N, CCW.A, CCW.B and CCW.K in normal state (R144 to R147), through the template they share. -/

namespace Sys2Proof.Machine

/-- The column of a mode by the tier of the version (R141). -/
theorem ccw_eq_ite (m : EncodingMode) (v : Nat) :
    ccw m v = if v ≤ 9 then ccwRom m .upTo9 else if v ≤ 26 then ccwRom m .from10to26 else ccwRom m .from27 := by
  rw [ccw, tierOf, apply_ite (ccwRom m), apply_ite (ccwRom m)]

/-- The Byte/Text column has one width from version 10 on (R141). -/
theorem ccw_byteText (v : Nat) : ccw .byteText v = if v ≤ 9 then 8 else 16 := by
  simp [ccw_eq_ite, ccwRom]

theorem LooksUp.exec_eq {i : Instr} {m : EncodingMode} {v : Nat} (hi : LooksUp i m v) (s : State) : exec i s = lookUpWidth m v s := by
  cases hi <;> rfl

/-- A look-up in normal state at a version of the table (R144 to R147). -/
theorem LooksUp.exec_ok {i : Instr} {m : EncodingMode} {v d : Nat} {s : State} (hi : LooksUp i m v) (hf : s.fault = 0)
    (hv : 1 ≤ v ∧ v ≤ 40) (hd : ccw m v = d) : exec i s = .next (s.answered 0 d) := by
  rw [hi.exec_eq, lookUpWidth, unlessFaulted_normal hf, withVersion_ok hv, hd, respond]

/-- A look-up in normal state at a version outside the table (R143). -/
theorem LooksUp.exec_bad {i : Instr} {m : EncodingMode} {v : Nat} {s : State} (hi : LooksUp i m v) (hf : s.fault = 0)
    (hv : ¬ (1 ≤ v ∧ v ≤ 40)) : exec i s = .next (s.raised .badOperand) := by
  rw [hi.exec_eq, lookUpWidth, unlessFaulted_normal hf, withVersion_bad hv]

/-- Settles O20: the four commands are one look-up, each in its own column. -/
theorem ccwReturnsTableWidth : Obligations.CcwReturnsTableWidth := by
  refine ⟨fun P v hv => ⟨?decodeN, ?decodeA, ?decodeB, ?decodeK⟩, fun s v hf hlow hhigh => ?answered, fun s v hf hv => ?raised⟩
  case decodeN => exact decode_of_operand (i := .ccwN v) rfl hv
  case decodeA => exact decode_of_operand (i := .ccwA v) rfl hv
  case decodeB => exact decode_of_operand (i := .ccwB v) rfl hv
  case decodeK => exact decode_of_operand (i := .ccwK v) rfl hv
  case answered =>
    have hv : 1 ≤ v ∧ v ≤ 40 := ⟨hlow, hhigh⟩
    exact ⟨LooksUp.numeric.exec_ok hf hv (ccw_eq_ite .numeric v), LooksUp.alphanumeric.exec_ok hf hv (ccw_eq_ite .alphanumeric v),
      LooksUp.byteText.exec_ok hf hv (ccw_byteText v), LooksUp.kanji.exec_ok hf hv (ccw_eq_ite .kanji v)⟩
  case raised =>
    exact ⟨LooksUp.numeric.exec_bad hf hv, LooksUp.alphanumeric.exec_bad hf hv, LooksUp.byteText.exec_bad hf hv,
      LooksUp.kanji.exec_bad hf hv⟩

end Sys2Proof.Machine
end

section
/-! ACB in normal state (R153), and the codebook as a bijection between the 45 bytes of the alphabet and the values 0..44 (R154). -/

namespace Sys2Proof.Machine

/-- The header of ACB (R153). -/
theorem headerOf_acb (c : Byte) : headerOf (.acb c) = BitVec.ofNat 12 (0xD00 + c.toNat) :=
  (ofNat_eq_mkHeader 0xD#4 c).symm

/-- ACB in normal state on a byte with a valid entry (R153). -/
theorem exec_acb_ok {s : State} {c : Byte} {v : Nat} (hf : s.fault = 0) (hv : acbRom c = some v) :
    exec (.acb c) s = .next (s.answered 0 v) := by
  rw [exec, execAcb, unlessFaulted_normal hf, hv]
  rfl

/-- ACB in normal state on a byte without a valid entry (R153). -/
theorem exec_acb_bad {s : State} {c : Byte} (hf : s.fault = 0) (hc : acbRom c = none) :
    exec (.acb c) s = .next (s.raised .alphabetViolation) := by
  rw [exec, execAcb, unlessFaulted_normal hf, hc]
  rfl

/-- Settles O21: the ROM's formulas are the address table, and ACB answers its entry or raises fault 3. -/
theorem acbReturnsCodebookValue : Obligations.AcbReturnsCodebookValue :=
  ⟨fun _ _ c => decode_of_ignoresOperand rfl (headerOf_acb c),
    fun _ c _ hf hv => exec_acb_ok hf ((acbRom_eq_codebookAt c).trans hv),
    fun _ c hf hc => exec_acb_bad hf ((acbRom_eq_codebookAt c).trans hc)⟩

/-- The inverse table (R154): the byte that R151 lists for a value. -/
def byteOfCodebookValue (v : Nat) : Option Byte :=
  if v < 10 then some (BitVec.ofNat 8 (0x30 + v))
  else if v < 36 then some (BitVec.ofNat 8 (0x41 + (v - 10)))
  else (acbPunctuation.find? fun e => e.2 == v).map fun e => BitVec.ofNat 8 e.1

/-- The inverse table gives every valid byte back from its value. -/
theorem byteOfCodebookValue_of_acbRom (c : Byte) : ∀ v ∈ acbRom c, byteOfCodebookValue v = some c := by
  revert c; decide

/-- The codebook is injective, for it has a left inverse (R154). -/
theorem acbRom_inj {c c' : Byte} {v : Nat} (h : acbRom c = some v) (h' : acbRom c' = some v) : c = c' :=
  Option.some.inj ((byteOfCodebookValue_of_acbRom c v h).symm.trans (byteOfCodebookValue_of_acbRom c' v h'))

/-- The bytes with a valid entry, in ascending order, are the list of R132 (R155). -/
theorem filter_isAlnum_range : ((List.range 256).filter fun c => isAlnum (BitVec.ofNat 8 c)) = alphanumericSet := by
  decide

/-- 45 entries of the ROM are valid (R150). -/
theorem countP_isAlnum_range : ((List.range 256).countP fun c => isAlnum (BitVec.ofNat 8 c)) = 45 := by
  rw [List.countP_eq_length_filter, filter_isAlnum_range]
  rfl

/-- The value of a pair is a number of two digits in base 45 (R154). -/
theorem divMod_pairValue {v v' : Nat} (h : v' < 45) : (45 * v + v') / 45 = v ∧ (45 * v + v') % 45 = v' := by
  omega

/-- Settles O22: the inverse table makes the map injective, and a value below 45 is one digit of a pair. -/
theorem codebookMatchesItsAddressTable : Obligations.CodebookMatchesItsAddressTable :=
  ⟨fun c => ⟨acbRom_eq_codebookAt c, isAlnum_eq_inAlphanumericSet c⟩, fun _ _ _ => acbRom_inj,
    fun c v hv => Nat.le_of_lt_succ (acbRom_lt c v hv), countP_isAlnum_range,
    fun _ c' _ v' _ hv' => divMod_pairValue (acbRom_lt c' v' hv')⟩

end Sys2Proof.Machine
end

section
/-! The packets of the encoders, through the index rules they follow (R161 to R167): their number, their widths and bounds of their values
(R163, R170). -/

namespace Sys2Proof.Machine

/-- On a payload of its alphabet the encoder answers the packets of the index rules. -/
theorem packetsOf_of_meetsAlphabet {m : SegmentMode} {p : List Byte} (h : meetsAlphabet m p = true) :
    packetsOf m p = .ok (rulePackets m p) := by
  obtain ⟨ps, hps⟩ := exists_packetsOf_of_meetsAlphabet h
  rw [hps, packetsOf_eq_rulePackets hps]

/-- The encoder's test is the ROM's valid bit, which is membership in the alphabet (R155, R166). -/
theorem packetsOf_alphanumeric_of_not_meetsAlphabet {p : List Byte} (h : meetsAlphabet .alphanumeric p = false) :
    packetsOf .alphanumeric p = .error .alphabetViolation := by
  refine packetsOf_alphanumeric_error ?_
  rw [funext isAlnum_eq_inAlphanumericSet]
  exact h

/-- Settles O25: an accepted payload gives the packets of the index rules, and each alphabet check is that of its mode. -/
theorem packetsFollowTheIndexRules : Obligations.PacketsFollowTheIndexRules :=
  ⟨fun _ _ => packetsOf_of_meetsAlphabet, fun _ => packetsOf_numeric_error, fun _ => packetsOf_alphanumeric_of_not_meetsAlphabet⟩

/-- The widths of a payload's packets, in order (R163, R164, R167). -/
def packetWidths : SegmentMode → Nat → List Nat
  | .numeric, L => List.replicate (L / 3) 10 ++ (if L % 3 = 1 then [4] else if L % 3 = 2 then [7] else [])
  | .alphanumeric, L => List.replicate (L / 2) 11 ++ (if L % 2 = 1 then [6] else [])
  | .byteText, L => List.replicate L 8

/-- The number of a payload's packets (R163). -/
def packetCount : SegmentMode → Nat → Nat
  | .numeric, L => ceilDiv L 3
  | .alphanumeric, L => ceilDiv L 2
  | .byteText, L => L

theorem rulePackets_widths (m : SegmentMode) (p : List Byte) : (rulePackets m p).map Packet.width = packetWidths m p.length := by
  cases m with
  | numeric =>
    obtain h | h | h : p.length % 3 = 0 ∨ p.length % 3 = 1 ∨ p.length % 3 = 2 := by omega
    all_goals simp [rulePackets, packetWidths, Function.comp_def, List.map_const', h]
  | alphanumeric =>
    obtain h | h := Nat.mod_two_eq_zero_or_one p.length
    all_goals simp [rulePackets, packetWidths, Function.comp_def, List.map_const', h]
  | byteText => simp [rulePackets, packetWidths, Function.comp_def, List.map_const']

theorem length_packetWidths (m : SegmentMode) (L : Nat) : (packetWidths m L).length = packetCount m L := by
  cases m with
  | numeric =>
    rw [packetWidths, packetCount, ceilDiv, List.length_append, List.length_replicate]
    split_ifs <;> simp only [List.length_cons, List.length_nil] <;> omega
  | alphanumeric =>
    rw [packetWidths, packetCount, ceilDiv, List.length_append, List.length_replicate]
    split_ifs <;> simp only [List.length_cons, List.length_nil] <;> omega
  | byteText => exact List.length_replicate

/-- A digit position holds a decimal digit: past the end it reads 0 (R161). -/
theorem digitAt_lt {p : List Byte} (h : meetsAlphabet .numeric p = true) (i : Nat) : digitAt p i < 10 := by
  rw [digitAt, List.getD_eq_getElem?_getD]
  cases hc : p[i]? with
  | none => decide
  | some c =>
    have hdigit := of_decide_eq_true (List.all_eq_true.1 h c (List.mem_of_getElem? hc))
    rw [Option.getD_some]
    omega

/-- A codebook value is below 45, and a byte without one reads 0 (R154, R164). -/
theorem valueAt_lt (p : List Byte) (i : Nat) : valueAt p i < 45 := by
  rw [valueAt, ← acbRom_eq_codebookAt]
  cases hv : acbRom (p.getD i 0) with
  | none => decide
  | some v => exact acbRom_lt _ v hv

/-- Three digits are below 1000, two below 100, and a pair of characters below 45 * 45: each value fits its width. -/
theorem rulePackets_value_lt {m : SegmentMode} {p : List Byte} (h : meetsAlphabet m p = true) :
    ∀ q ∈ rulePackets m p, q.value < 2 ^ q.width := by
  intro q hq
  cases m with
  | numeric =>
    have hdigit := digitAt_lt h
    simp only [rulePackets, List.mem_append, List.mem_map, List.mem_ite_nil_right, List.mem_singleton] at hq
    obtain (⟨j, -, rfl⟩ | ⟨-, rfl⟩) | ⟨-, rfl⟩ := hq
    · have := hdigit (3 * j)
      have := hdigit (3 * j + 1)
      have := hdigit (3 * j + 2)
      dsimp only
      omega
    · have := hdigit (3 * (p.length / 3))
      have := hdigit (3 * (p.length / 3) + 1)
      dsimp only
      omega
    · have := hdigit (3 * (p.length / 3))
      dsimp only
      omega
  | alphanumeric =>
    simp only [rulePackets, List.mem_append, List.mem_map, List.mem_ite_nil_right, List.mem_singleton] at hq
    obtain ⟨j, -, rfl⟩ | ⟨-, rfl⟩ := hq
    · have := valueAt_lt p (2 * j)
      have := valueAt_lt p (2 * j + 1)
      dsimp only
      omega
    · have := valueAt_lt p (p.length - 1)
      dsimp only
      omega
  | byteText =>
    simp only [rulePackets, List.mem_map] at hq
    obtain ⟨i, -, rfl⟩ := hq
    exact (p.getD i 0).isLt

/-- Settles O26: the packets are those of the index rules, whose widths, number and values are read off. -/
theorem packetCountsAndWidths : Obligations.PacketCountsAndWidths := by
  intro m p ps h
  have hbits := packetsOf_bits h
  have halphabet := meetsAlphabet_of_packetsOf h
  obtain rfl := packetsOf_eq_rulePackets h
  have hwidths := rulePackets_widths m p
  have hcount : (rulePackets m p).length = packetCount m p.length := by
    rw [← length_packetWidths, ← hwidths, List.length_map]
  refine ⟨by rw [← flatten_length, hbits, ruleBits_eq_payBits], hbits, ?_, ?_, rulePackets_value_lt halphabet⟩
  · cases m <;> exact hcount
  · cases m <;> exact hwidths

end Sys2Proof.Machine
end

section
/-! ENC.N, ENC.A, ENC.B in normal state (R172 to R174), through the template they share; and ENC.K and ENCODE.K (R175, R192). -/

namespace Sys2Proof.Machine

theorem Appends.exec_eq {i : Instr} {m : SegmentMode} (hi : Appends i m) (s : State) : exec i s = appendPayload m s := by
  cases hi <;> rfl

/-- ENC.x on a payload of its alphabet (R171): the room fault, or the packets appended, which changes no word below the append point and
none past the new end. -/
theorem Appends.appendsPayload {i : Instr} {m : SegmentMode} (hi : Appends i m) : AppendsPayload i m := by
  intro s p l hf hW hst hp hl halphabet
  have hps := packetsOf_of_meetsAlphabet halphabet
  rw [ruleBits_eq_payBits, hi.exec_eq]
  refine ⟨fun hfull => appendPayload_full hf hp hps hfull, fun hroom => ?_⟩
  obtain ⟨st, hexec, hwf, hlen, hbits, hbelow⟩ := appendPayload_ok hf hW hst hl hp hps hroom
  refine ⟨st, hlen ▸ hexec, hlen, hwf, hbits, fun a ha => ?_⟩
  rcases ha with hlt | hge
  · exact hbelow a hlt
  · exact read_eq_of_ceilDiv_le hst hwf (by omega) (by rwa [hlen])

/-- ENC.x on a payload its encoder does not accept (R162, R166). -/
theorem Appends.refusesAlphabet {i : Instr} {m : SegmentMode} {code : FaultCode} (hi : Appends i m)
    (h : ∀ p, meetsAlphabet m p = false → packetsOf m p = .error code) : RefusesAlphabet i m (faultBits code) := by
  intro s p hf hp halphabet
  rw [hi.exec_eq]
  exact appendPayload_alphabet hf hp (h p halphabet)

/-- Settles O27: ENC.N is the template in Numeric mode. -/
theorem encNumericAppendsPayloadPackets : Obligations.EncNumericAppendsPayloadPackets :=
  ⟨fun _ _ => decode_of_ignoresOperand rfl rfl, Appends.numeric.appendsPayload,
    Appends.numeric.refusesAlphabet fun _ => packetsOf_numeric_error⟩

/-- Settles O28: ENC.A is the template in Alphanumeric mode. -/
theorem encAlphanumericAppendsPayloadPackets : Obligations.EncAlphanumericAppendsPayloadPackets :=
  ⟨fun _ _ => decode_of_ignoresOperand rfl rfl, Appends.alphanumeric.appendsPayload,
    Appends.alphanumeric.refusesAlphabet fun _ => packetsOf_alphanumeric_of_not_meetsAlphabet⟩

/-- Settles O29: ENC.B is the template in Byte/Text mode, whose alphabet is every byte. -/
theorem encByteAppendsPayloadPackets : Obligations.EncByteAppendsPayloadPackets :=
  ⟨fun _ _ => decode_of_ignoresOperand rfl rfl, Appends.byteText.appendsPayload⟩

/-- Settles O30: in normal state the raise is the whole rule of both commands. -/
theorem kanjiAlwaysUnsupported : Obligations.KanjiAlwaysUnsupported :=
  ⟨fun _ _ => ⟨decode_of_ignoresOperand rfl rfl, decode_of_ignoresOperand rfl rfl⟩,
    fun _ hf => ⟨unlessFaulted_normal hf, unlessFaulted_normal hf⟩⟩

end Sys2Proof.Machine
end

section
/-! ENCODE.AUTO, ENCODE.N, ENCODE.A, ENCODE.B in normal state (R188 to R191), through the body they share (R185). -/

namespace Sys2Proof.Machine

/-- ENCODE.x before any version is set (R183). -/
theorem Encodes.exec_unset {i : Instr} {m : SegmentMode} {p : List Byte} {s : State} (hi : Encodes p i m) (hf : s.fault = 0)
    (hv : s.version = 0) : exec i s = .next (s.raised .badOperand) := by
  cases hi <;> exact encodeSegment_unset hf hv

/-- ENCODE.x with a version set: the body of R185 in the mode it resolves to (R182). -/
theorem Encodes.exec_set {i : Instr} {m : SegmentMode} {p : List Byte} {s : State} (hi : Encodes p i m) (hf : s.fault = 0)
    (hv : s.version ≠ 0) (hp : s.payload = some p) : exec i s = encodePayload m p s := by
  cases hi <;> exact encodeSegment_set hf hv hp

/-- The state after a successful ENCODE (R185): its stream, its mode, SEGV and the response. -/
abbrev afterSegment (s : State) (m : SegmentMode) (st : BitStream) : State :=
  { s with stream := st, mode := segmentCode m, segv := true, rsp := some { f := 0, d := st.blen } }

/-- ENCODE.x on a payload of the mode's alphabet, with room: `segment(m, VERSION, P)` in a new stream (R181, R185). -/
theorem Encodes.exec_ok {i : Instr} {m : SegmentMode} {p : List Byte} {s : State} (hi : Encodes p i m) (hf : s.fault = 0)
    (hv : s.version ≠ 0) (hW : 0 < s.params.W) (hp : s.payload = some p) (halphabet : meetsAlphabet m p = true)
    (hroom : segmentLength m s.version.toNat s.plen ≤ s.params.maxBits) :
    ∃ st, exec i s = .next (afterSegment s m st) ∧ st.blen = segmentLength m s.version.toNat s.plen ∧ StreamWf s.params.W st ∧
      streamBits s.params.W st = some (segmentBits m s.version.toNat p) := by
  have hps := packetsOf_of_meetsAlphabet halphabet
  rw [segmentLength_eq] at hroom ⊢
  obtain ⟨st, hexec, hwf, hlen, hbits⟩ := encodePayload_ok hW (payload_length hp) hps hroom
  exact ⟨st, (hi.exec_set hf hv hp).trans hexec, hlen, hwf, by rw [hbits, segmentBits_eq hps, payload_length hp]⟩

theorem ofNat_ruleCode (m : SegmentMode) : BitVec.ofNat 4 (ruleCode m) = segmentCode m := by
  cases m <;> rfl

/-- A command that resolves to the mode `pick P` makes the segment of that mode (R185). -/
theorem makesSegment_of_encodes {i : Instr} {pick : List Byte → SegmentMode} (hi : ∀ p, Encodes p i (pick p)) :
    MakesSegment i pick := by
  refine fun s hf => ⟨fun hv => (hi []).exec_unset hf hv, fun p hv hW hp halphabet => ⟨fun hfull => ?_, fun hroom => ?_⟩⟩
  · rw [segmentLength_eq] at hfull
    exact ((hi p).exec_set hf hv hp).trans (encodePayload_full (packetsOf_of_meetsAlphabet halphabet) hfull)
  · obtain ⟨st, hexec, hlen, hwf, hbits⟩ := (hi p).exec_ok hf hv hW hp halphabet hroom
    rw [ofNat_ruleCode, ← hlen]
    exact ⟨st, hexec, rfl, hwf, hbits⟩

/-- ENCODE.x of a named mode on a payload its encoder does not accept (R162, R166). -/
theorem segmentRefusesAlphabet_of_encodes {i : Instr} {m : SegmentMode} {code : FaultCode} (hi : ∀ p, Encodes p i m)
    (h : ∀ p, meetsAlphabet m p = false → packetsOf m p = .error code) : SegmentRefusesAlphabet i m (faultBits code) :=
  fun _ p hf hv hp halphabet => ((hi p).exec_set hf hv hp).trans (encodePayload_alphabet (h p halphabet))

theorem encodes_narrowestMode (p : List Byte) : Encodes p .encodeAuto (narrowestMode p) :=
  classifyBytes_eq_narrowestMode p ▸ .auto

/-- Settles O31: ENCODE.AUTO resolves to the narrowest mode, whose alphabet the payload meets. -/
theorem encodeAutoMakesSegment : Obligations.EncodeAutoMakesSegment :=
  ⟨fun _ _ => decode_of_ignoresOperand rfl rfl, makesSegment_of_encodes encodes_narrowestMode, meetsAlphabet_narrowestMode⟩

/-- Settles O32: each of the three commands is the shared body in the mode it names. -/
theorem encodeNamedMakesSegment : Obligations.EncodeNamedMakesSegment := by
  refine ⟨fun _ _ => ⟨?decodeN, ?decodeA, ?decodeB⟩, ?segmentN, ?segmentA, ?segmentB, ?refusesN, ?refusesA⟩
  case decodeN | decodeA | decodeB => exact decode_of_ignoresOperand rfl rfl
  case segmentN => exact makesSegment_of_encodes fun _ => .numeric
  case segmentA => exact makesSegment_of_encodes fun _ => .alphanumeric
  case segmentB => exact makesSegment_of_encodes fun _ => .byteText
  case refusesN => exact segmentRefusesAlphabet_of_encodes (fun _ => .numeric) fun _ => packetsOf_numeric_error
  case refusesA =>
    exact segmentRefusesAlphabet_of_encodes (fun _ => .alphanumeric) fun _ => packetsOf_alphanumeric_of_not_meetsAlphabet

end Sys2Proof.Machine
end

section
/-! The segment is the stream built by hand from BS.NEW, BS.BITS and ENC (R96, R181). -/

namespace Sys2Proof.Machine

/-- t is s with a well-formed stream that holds the string l and is not marked as a segment: what hand-building a stream goes through. -/
def HandBuilt (s t : State) (l : Bits) : Prop :=
  ∃ st r, t = { s with stream := st, segv := false, rsp := r } ∧ StreamWf s.params.W st ∧ streamBits s.params.W st = some l

/-- BS.NEW starts with the empty string (R119). -/
theorem exec_bsNew_handBuilt {s : State} (hf : s.fault = 0) (hW : 0 < s.params.W) :
    ∃ t, exec .bsNew s = .next t ∧ HandBuilt s t [] :=
  ⟨_, unlessFaulted_normal hf, emptyStream, some { f := 0, d := 0 }, rfl, emptyStream_wf hW, streamBits_empty _⟩

/-- BS.BITS puts `bin_width(v)` at the end (R121). -/
theorem HandBuilt.exec_bsBits {s t : State} {l : Bits} (h : HandBuilt s t l) (width : BitVec 8) (v : Nat)
    (hf : s.fault = 0) (hW : 0 < s.params.W) (hwidth : width.toNat ≤ s.params.W) (hroom : l.length + width.toNat ≤ s.params.maxBits) :
    ∃ u, exec (.bsBits width v) t = .next u ∧ HandBuilt s u (l ++ bin width.toNat v) := by
  obtain ⟨st, r, rfl, hwf, hl⟩ := h
  rw [streamBits_length hl] at hroom
  obtain ⟨st', happ, hwf', -, hbits, -⟩ := appendBits_bits hW v width.toNat hwf hl
  exact ⟨_, exec_bsBits_ok hf hwidth hroom happ, st', _, rfl, hwf', hbits⟩

/-- ENC.x puts the payload's packets at the end (R171). -/
theorem HandBuilt.exec_enc {s t : State} {l : Bits} {i : Instr} {m : SegmentMode} {p : List Byte} (h : HandBuilt s t l)
    (hi : Appends i m) (hf : s.fault = 0) (hW : 0 < s.params.W) (hp : s.payload = some p) (halphabet : meetsAlphabet m p = true)
    (hroom : l.length + ruleBits m s.plen ≤ s.params.maxBits) :
    ∃ u, exec i t = .next u ∧ HandBuilt s u (l ++ flatten (rulePackets m p)) := by
  obtain ⟨st, r, rfl, hwf, hl⟩ := h
  rw [streamBits_length hl, ruleBits_eq_payBits] at hroom
  obtain ⟨st', hexec, hwf', -, hbits, -⟩ := appendPayload_ok (s := { s with stream := st, segv := false, rsp := r })
    hf hW hwf hl hp (packetsOf_of_meetsAlphabet halphabet) hroom
  exact ⟨_, (hi.exec_eq _).trans hexec, st', _, rfl, hwf', hbits⟩

theorem runAll_cons {i : Instr} {is : List Instr} {s t : State} (h : exec i s = .next t) : runAll (i :: is) s = runAll is t := by
  rw [runAll, h]

theorem sixteen_le_width_of_allowed {P : Params} (h : P.Allowed) : 16 ≤ P.W := by
  obtain ⟨hW, -⟩ := h
  omega

/-- A count width is at most 16 (R141), so a word holds the count and BS.BITS can name its width. -/
theorem ruleWidth_le (m : SegmentMode) (v : Nat) : ruleWidth m v ≤ 16 := by
  rw [ruleWidth_eq_ccw]
  exact ccw_le _ _

theorem toNat_ofNat_ruleWidth (m : SegmentMode) (v : Nat) : (BitVec.ofNat 8 (ruleWidth m v)).toNat = ruleWidth m v := by
  have := ruleWidth_le m v
  rw [BitVec.toNat_ofNat]
  omega

/-- The mode indicator, the count and the packets appended by hand to a new stream (R96) are the segment, not marked as one. -/
theorem runAll_segment_by_hand {i : Instr} {m : SegmentMode} {s : State} {p : List Byte} (hi : Appends i m) (hf : s.fault = 0)
    (hparams : s.params.Allowed) (hp : s.payload = some p) (halphabet : meetsAlphabet m p = true)
    (hroom : segmentLength m s.version.toNat s.plen ≤ s.params.maxBits) :
    ∃ t, runAll [.bsNew, .bsBits 4#8 (ruleCode m), .bsBits (BitVec.ofNat 8 (ruleWidth m s.version.toNat)) s.plen, i] s = .next t ∧
      HandBuilt s t (segmentBits m s.version.toNat p) := by
  have hW := width_pos_of_allowed hparams
  have hW16 := sixteen_le_width_of_allowed hparams
  have hfour : (4#8).toNat = 4 := rfl
  have hcount := toNat_ofNat_ruleWidth m s.version.toNat
  have hcount16 := ruleWidth_le m s.version.toNat
  rw [segmentLength] at hroom
  obtain ⟨t1, hnew, h1⟩ := exec_bsNew_handBuilt hf hW
  obtain ⟨t2, hcode, h2⟩ := h1.exec_bsBits 4#8 (ruleCode m) hf hW (by omega) (by rw [List.length_nil]; omega)
  obtain ⟨t3, hlen, h3⟩ := h2.exec_bsBits (BitVec.ofNat 8 (ruleWidth m s.version.toNat)) s.plen hf hW (by omega)
    (by rw [List.nil_append, bin_length]; omega)
  obtain ⟨t4, henc, h4⟩ := h3.exec_enc hi hf hW hp halphabet
    (by rw [List.nil_append, List.length_append, bin_length, bin_length]; omega)
  refine ⟨t4, ?_, ?_⟩
  · rw [runAll_cons hnew, runAll_cons hcode, runAll_cons hlen, runAll_cons henc, runAll]
  · rwa [hcount, ← payload_length hp, List.nil_append, List.append_assoc] at h4

/-- Settles O33: both streams are well formed and hold the segment's bits, so they are equal. -/
theorem segmentEqualsHandBuiltStream : Obligations.SegmentEqualsHandBuiltStream := by
  intro s p ⟨enc, encode, m⟩ hx hs hf hv hp halphabet hroom
  have hcommands : Appends enc m ∧ Encodes p encode m := by
    simp only [List.mem_cons, List.not_mem_nil, or_false, Prod.mk.injEq] at hx
    obtain ⟨rfl, rfl, rfl⟩ | ⟨rfl, rfl, rfl⟩ | ⟨rfl, rfl, rfl⟩ := hx
    · exact ⟨.numeric, .numeric⟩
    · exact ⟨.alphanumeric, .alphanumeric⟩
    · exact ⟨.byteText, .byteText⟩
  obtain ⟨henc, hencode⟩ := hcommands
  have hW := width_pos_of_allowed hs.params
  obtain ⟨t, hrun, st, r, rfl, hwf, hbits⟩ := runAll_segment_by_hand henc hf hs.params hp halphabet hroom
  obtain ⟨st', hexec, -, hwf', hbits'⟩ := hencode.exec_ok hf hv hW hp halphabet hroom
  exact ⟨_, _, hrun, hexec, stream_ext hW hwf hwf' (hbits.trans hbits'.symm), rfl, rfl⟩

end Sys2Proof.Machine
end

section
/-! The count field of a segment: `bin_ccw(PLEN)`, which spells PLEN mod 2^ccw (R181, R187). -/

namespace Sys2Proof.Machine

theorem ruleCode_lt (m : SegmentMode) : ruleCode m < 2 ^ 4 := by
  cases m <;> decide

/-- The first 4 bits of a segment spell the mode's code (R181). -/
theorem spelled_take_segmentBits (m : SegmentMode) (v : Nat) (p : List Byte) :
    spelled ((segmentBits m v p).take 4) = ruleCode m := by
  rw [segmentBits, List.take_left' (bin_length _ _), spelled_bin, Nat.mod_eq_of_lt (ruleCode_lt m)]

/-- The ccw bits after them spell the payload's length mod 2^ccw (R187). -/
theorem spelled_count_segmentBits (m : SegmentMode) (v : Nat) (p : List Byte) :
    spelled (((segmentBits m v p).drop 4).take (ruleWidth m v)) = p.length % 2 ^ ruleWidth m v := by
  rw [segmentBits, List.drop_left' (bin_length _ _), List.take_left' (bin_length _ _), spelled_bin]

/-- The narrowest count fields are those of versions 1 to 9 (R141). -/
theorem ruleWidth_one_le (m : SegmentMode) (v : Nat) : ruleWidth m 1 ≤ ruleWidth m v := by
  rw [ruleWidth_eq_ccw, ruleWidth_eq_ccw, ccw, ccw]
  cases m <;> cases tierOf v <;> decide

/-- Settles O36: the segment's count field is `bin_ccw(PLEN)`, and the narrowest count fields have 8, 9 and 10 bits. -/
theorem countFieldHoldsLengthModuloWidth : Obligations.CountFieldHoldsLengthModuloWidth := by
  refine ⟨?field, fun v => ⟨?minB, ?minA, ?minN⟩, rfl, rfl, rfl⟩
  case field =>
    intro s p ⟨i, m⟩ hx hs hf hv hp halphabet hroom
    have hi : Encodes p i m := by
      simp only [List.mem_cons, List.not_mem_nil, or_false, Prod.mk.injEq] at hx
      obtain ⟨rfl, rfl⟩ | ⟨rfl, rfl⟩ | ⟨rfl, rfl⟩ := hx
      · exact .numeric
      · exact .alphanumeric
      · exact .byteText
    obtain ⟨st, hexec, -, -, hbits⟩ := hi.exec_ok hf hv (width_pos_of_allowed hs.params) hp halphabet hroom
    refine ⟨_, _, hexec, hf, hbits, spelled_take_segmentBits m _ p, ?_⟩
    rw [← payload_length hp]
    exact spelled_count_segmentBits m _ p
  case minB => exact Nat.pow_le_pow_right Nat.two_pos (ruleWidth_one_le .byteText v)
  case minA => exact Nat.pow_le_pow_right Nat.two_pos (ruleWidth_one_le .alphanumeric v)
  case minN => exact Nat.pow_le_pow_right Nat.two_pos (ruleWidth_one_le .numeric v)

end Sys2Proof.Machine
end

section
/-! What a successful ENCODE leaves depends on the mode, VERSION and the payload alone (R193). -/

namespace Sys2Proof.Machine

/-- The two ways ENCODE ends from normal state, in two states side by side: the same fault, or the same segment. -/
inductive EndAlike (s s' t t' : State) : Prop
  | raised (code : FaultCode) (ht : t = s.raised code) (ht' : t' = s'.raised code)
  | segment (m : SegmentMode) (st : BitStream) (ht : t = afterSegment s m st) (ht' : t' = afterSegment s' m st)

/-- The body of R185 where its checks pass and its stream is made. -/
theorem encodePayload_stream {m : SegmentMode} {p : List Byte} {ps : List Packet} {s : State} {st : BitStream}
    (hps : packetsOf m p = .ok ps) (hroom : 4 + ccw (encodingOf m) s.version.toNat + payBits m s.plen ≤ s.params.maxBits)
    (hst : encodeStream s.params.W m s.plen (ccw (encodingOf m) s.version.toNat) ps = some st) :
    encodePayload m p s = .next (afterSegment s m st) := by
  simp only [encodePayload, hps, withRoom_ok hroom, hst, withAppended]
  rfl

/-- R185 reads the parameters, VERSION, PLEN and the payload, and none of the rest. -/
theorem endAlike_of_encodeSegment {x : Option SegmentMode} {s s' t t' : State} (hf : s.fault = 0) (hf' : s'.fault = 0)
    (hparams : s.params = s'.params) (hversion : s.version = s'.version) (hplen : s.plen = s'.plen) (hpbuf : s.pbuf = s'.pbuf)
    (h : encodeSegment x s = .next t) (h' : encodeSegment x s' = .next t') : EndAlike s s' t t' := by
  obtain ⟨hne, -⟩ | ⟨-, ⟨hv, ht⟩ | ⟨hv, p, m, hp, rfl, hpackets⟩⟩ := next_of_encodeSegment h
  · exact absurd hf hne
  · rw [encodeSegment_unset hf' (hversion ▸ hv)] at h'
    cases h'
    exact .raised _ ht rfl
  · rw [encodeSegment_set hf' (hversion ▸ hv) (payload_congr hplen hpbuf ▸ hp)] at h'
    obtain ⟨code, hps, ht⟩ | ⟨ps, hps, ⟨hfull, ht⟩ | ⟨hroom, st, hst, ht⟩⟩ := hpackets
    · rw [encodePayload_alphabet hps] at h'
      cases h'
      exact .raised code ht rfl
    · rw [hparams, hversion, hplen] at hfull
      rw [encodePayload_full hps hfull] at h'
      cases h'
      exact .raised _ ht rfl
    · rw [hparams, hversion, hplen] at hroom hst
      rw [encodePayload_stream hps hroom hst] at h'
      cases h'
      exact .segment _ st ht rfl

/-- The commands with op 0xF are ENCODE.K and the template of R185. -/
theorem encodeK_or_encodeSegment {i : Instr} (hi : isEncode i = true) :
    i = .encodeK ∨ ∃ x, ∀ s, exec i s = encodeSegment x s := by
  cases i with
  | encodeAuto => exact .inr ⟨none, fun _ => rfl⟩
  | encodeN => exact .inr ⟨some .numeric, fun _ => rfl⟩
  | encodeA => exact .inr ⟨some .alphanumeric, fun _ => rfl⟩
  | encodeB => exact .inr ⟨some .byteText, fun _ => rfl⟩
  | encodeK => exact .inl rfl
  | _ => cases hi

/-- Settles O34: the two commands raise the same fault or make the same segment. -/
theorem segmentDependsOnInputsOnly : Obligations.SegmentDependsOnInputsOnly := by
  intro i s s' t t' hi hf hf' hparams hversion hplen hpbuf h h'
  have halike : EndAlike s s' t t' := by
    obtain rfl | ⟨x, hx⟩ := encodeK_or_encodeSegment hi
    · obtain ⟨-, hkanji⟩ := kanjiAlwaysUnsupported
      rw [(hkanji s hf).2] at h
      rw [(hkanji s' hf').2] at h'
      cases h
      cases h'
      exact .raised .unsupportedMode rfl rfl
    · rw [hx] at h h'
      exact endAlike_of_encodeSegment hf hf' hparams hversion hplen hpbuf h h'
  cases halike with
  | raised code ht ht' =>
    subst ht ht'
    exact ⟨rfl, rfl, fun h0 => absurd h0 (faultBits_ne_zero code)⟩
  | segment m st ht ht' =>
    subst ht ht'
    exact ⟨hf.trans hf'.symm, rfl, fun _ => ⟨rfl, rfl, rfl⟩⟩

end Sys2Proof.Machine
end

section
/-! The length of a finished segment (R194). -/

namespace Sys2Proof.Machine

/-- A command other than INIT that ends in normal state from normal state passed its checks. -/
theorem effect_of_fault_eq_zero {s t : State} {i : Instr} (h : exec i s = .next t) (hi : i ≠ .init) (hf : s.fault = 0)
    (hf' : t.fault = 0) : Effect s i t := by
  cases exec_cases h with
  | restored hinit => exact absurd hinit hi
  | refused hne => exact absurd hf hne
  | raised _ code _ ht =>
    rw [ht, State.raised_fault] at hf'
    exact absurd hf' (faultBits_ne_zero code)
  | done _ he => exact he

/-- A successful ENCODE made the segment of the mode it resolved to, and answers its length (R185). -/
theorem Effect.exists_segmentLength {s t : State} {i : Instr} (h : Effect s i t) (hi : isEncode i = true) (hW : 0 < s.params.W) :
    ∃ m p, Encodes p i m ∧ p.length = s.plen ∧ t.mode = segmentCode m ∧ t.rsp = some { f := 0, d := t.stream.blen } ∧
      t.stream.blen = segmentLength m s.version.toNat s.plen := by
  cases h with
  | ccw hl => cases hl <;> cases hi
  | enc ha => cases ha <;> cases hi
  | @encode _ m p ps st he hv hp hps hr hst =>
    obtain ⟨st', hst', -, hlen, -⟩ := encodeStream_bits hW m s.plen (Sys2Proof.Machine.ccw (encodingOf m) s.version.toNat) ps
    obtain rfl := Option.some.inj (hst'.symm.trans hst)
    exact ⟨m, p, he, payload_length hp, rfl, rfl, by rw [hlen, packetsOf_bits hps, payload_length hp, segmentLength_eq]⟩
  | _ => cases hi

theorem segmentLength_numeric_eq (v L : Nat) : segmentLength .numeric v L =
    4 + (if v ≤ 9 then 10 else if v ≤ 26 then 12 else 14) + 10 * (L / 3) + numericTail L := by
  rw [segmentLength, ruleWidth_eq_ccw, encodingOf, ccw_eq_ite, ruleBits, Nat.add_assoc _ (10 * _)]
  rfl

theorem segmentLength_alphanumeric_eq (v L : Nat) : segmentLength .alphanumeric v L =
    4 + (if v ≤ 9 then 9 else if v ≤ 26 then 11 else 13) + 11 * (L / 2) + 6 * (L % 2) := by
  rw [segmentLength, ruleWidth_eq_ccw, encodingOf, ccw_eq_ite, ruleBits, Nat.add_assoc _ (11 * _)]
  rfl

theorem segmentLength_byteText_eq (v L : Nat) : segmentLength .byteText v L = 4 + (if v ≤ 9 then 8 else 16) + 8 * L := by
  rw [segmentLength, ruleWidth_eq_ccw, encodingOf, ccw_byteText, ruleBits]

/-- One byte of payload is at least 4 bits of segment: a lone digit (R161). -/
theorem four_le_ruleBits (m : SegmentMode) {L : Nat} (hL : 0 < L) : 4 ≤ ruleBits m L := by
  rw [ruleBits_eq_payBits]
  cases m with
  | numeric =>
    rw [payBits]
    split_ifs <;> omega
  | alphanumeric => rw [payBits]; omega
  | byteText => rw [payBits]; omega

/-- No segment of a mode is shorter than the empty one at version 1. -/
theorem header_le_segmentLength (m : SegmentMode) (v L : Nat) : 4 + ruleWidth m 1 ≤ segmentLength m v L := by
  have := ruleWidth_one_le m v
  rw [segmentLength]
  omega

/-- A segment less than 4 bits longer than that is empty. -/
theorem eq_zero_of_segmentLength_lt {m : SegmentMode} {v L : Nat} (h : segmentLength m v L < 4 + ruleWidth m 1 + 4) : L = 0 := by
  by_contra hL
  have := four_le_ruleBits m (Nat.pos_of_ne_zero hL)
  have := ruleWidth_one_le m v
  rw [segmentLength] at h
  omega

/-- ENCODE.AUTO takes the empty payload as Numeric (R136), so its segments of the other modes are not empty. -/
theorem Encodes.le_segmentLength_of_auto {m : SegmentMode} {p : List Byte} (h : Encodes p .encodeAuto m) (hm : m ≠ .numeric)
    (v : Nat) : 16 ≤ segmentLength m v p.length := by
  have hmin : 12 ≤ 4 + ruleWidth m 1 := by cases m <;> decide
  by_contra hlt
  obtain rfl := List.length_eq_zero_iff.1 (eq_zero_of_segmentLength_lt (m := m) (v := v) (L := p.length) (by omega))
  cases h
  exact hm rfl

/-- The commands that can make a Byte/Text segment. -/
theorem Encodes.of_byteText {i : Instr} {m : SegmentMode} {p : List Byte} (h : Encodes p i m) (hm : m = .byteText) :
    i = .encodeAuto ∨ i = .encodeB := by
  cases h with
  | auto => exact .inl rfl
  | byteText => exact .inr rfl
  | numeric | alphanumeric => cases hm

/-- Settles O37, mode by mode: the empty segments at version 1 have 14, 13 and 12 bits. -/
theorem segmentLengthsAndShortestSegment : Obligations.SegmentLengthsAndShortestSegment := by
  refine ⟨fun i s t hi hs hf h hf' => ?finished, fun v hv => ⟨?emptyB, ?emptyN⟩⟩
  case finished =>
    have hinit : i ≠ .init := by rintro rfl; cases hi
    obtain ⟨m, p, he, hp, hmode, hrsp, hlen⟩ :=
      (effect_of_fault_eq_zero h hinit hf hf').exists_segmentLength hi (width_pos_of_allowed hs.params)
    have hmin := header_le_segmentLength m s.version.toNat s.plen
    have hempty := eq_zero_of_segmentLength_lt (m := m) (v := s.version.toNat) (L := s.plen)
    have hauto : m ≠ .numeric → i = .encodeAuto → 16 ≤ segmentLength m s.version.toNat s.plen := by
      rintro hm rfl
      exact hp ▸ he.le_segmentLength_of_auto hm _
    rw [hmode, hlen]
    rw [hlen] at hrsp
    cases m with
    | numeric =>
      rw [show ruleWidth .numeric 1 = 10 from rfl] at hmin hempty
      exact ⟨hrsp, by omega, fun _ => hmin, by omega, fun _ h14 => ⟨rfl, hempty (by omega)⟩,
        .inl ⟨rfl, segmentLength_numeric_eq _ _⟩⟩
    | alphanumeric =>
      rw [show ruleWidth .alphanumeric 1 = 9 from rfl] at hmin
      replace hauto := hauto (by decide)
      exact ⟨hrsp, by omega, fun ha => le_trans (by decide) (hauto ha), by omega, fun ha h14 => absurd (hauto ha) (by omega),
        .inr (.inl ⟨rfl, segmentLength_alphanumeric_eq _ _⟩)⟩
    | byteText =>
      rw [show ruleWidth .byteText 1 = 8 from rfl] at hmin hempty
      replace hauto := hauto (by decide)
      have hformula := segmentLength_byteText_eq s.version.toNat s.plen
      refine ⟨hrsp, hmin, fun ha => le_trans (by decide) (hauto ha), fun h12 => ⟨?command, rfl, hempty (by omega), ?tier⟩,
        fun ha h14 => absurd (hauto ha) (by omega), .inr (.inr ⟨rfl, hformula⟩)⟩
      case command => exact (he.of_byteText rfl).resolve_left fun ha => absurd (hauto ha) (by omega)
      case tier =>
        by_contra hv
        rw [if_neg hv] at hformula
        omega
  case emptyB => rw [segmentLength_byteText_eq, if_pos hv]
  case emptyN =>
    rw [segmentLength_numeric_eq, if_pos hv]
    rfl

end Sys2Proof.Machine
end

section
/-! INIT, RDSTAT, SETVER, SETECL, PL.CLR, PL.PUSH (R200 to R205). -/

namespace Sys2Proof.Machine

/-- In an op of format Z every header but the one with b = 0 is illegal (R83, R88). -/
theorem decode_formatZ_reserved {op : BitVec 4} {i : Nat → Instr} (hop : ∀ b a, decodeFields op b a = formatZ b (i a)) {ch : BitVec 12}
    (hlow : 256 * op.toNat < ch.toNat) (hhigh : ch.toNat < 256 * op.toNat + 256) (P : Params) (a : Nat) :
    decode P { ch := ch, a := a } = .error .reservedBits := by
  have hfields := toNat_mkHeader (headerOp ch) (headerImm ch)
  rw [mkHeader_fields] at hfields
  have hch : headerOp ch = op := BitVec.eq_of_toNat_eq (by omega)
  have himm : headerImm ch ≠ 0#8 := fun h0 => by
    rw [hch, h0, BitVec.toNat_zero] at hfields
    omega
  rw [decode, hch, hop, formatZ, if_neg himm]

/-- In fault state no command but INIT changes more than the response (R227). -/
theorem eq_of_exec_faulted {i : Instr} {s t : State} (hf : s.fault ≠ 0) (hi : i ≠ .init) (h : exec i s = .next t) :
    t = { s with rsp := t.rsp } := by
  cases exec_cases h with
  | restored hinit => exact absurd hinit hi
  | refused _ _ _ ht => rw [ht]; rfl
  | raised hf' => exact absurd hf' hf
  | done hr he =>
    obtain rfl := hr.resolve_left hf
    exact he.eq_of_isRead rfl

/-- Settles O2: INIT is its own rule in every state, and in fault state the rest are refused, but for RDSTAT, which only reads. -/
theorem initRestoresResetState : Obligations.InitRestoresResetState :=
  ⟨fun _ _ => decode_of_ignoresOperand rfl rfl,
    fun P _ a hlow hhigh =>
      ⟨_, decode_formatZ_reserved (op := 0x0#4) (fun _ _ => rfl) hlow (Nat.lt_succ_of_le hhigh) P a⟩,
    fun _ => rfl, fun _ _ _ hf hi h => eq_of_exec_faulted hf hi h⟩

/-- A concatenation as a number: the high part stands above the n bits of the low one. -/
theorem toNat_append_eq_add {m n : Nat} (x : BitVec m) (y : BitVec n) : (x ++ y).toNat = x.toNat * 2 ^ n + y.toNat := by
  rw [BitVec.toNat_append, ← Nat.shiftLeft_add_eq_or_of_lt y.isLt, Nat.shiftLeft_eq]

/-- The status word field by field (R31). -/
theorem statusWord_eq (s : State) : statusWord s =
    s.ecl.toNat * 2 ^ 14 + s.version.toNat * 2 ^ 8 + s.mode.toNat * 2 ^ 4 + s.segv.toNat * 2 ^ 3 + s.fault.toNat := by
  simp only [statusWord, statusBits, toNat_append_eq_add, BitVec.toNat_ofBool]
  omega

/-- RDSTAT in every state (R201). -/
theorem exec_rdstat (s : State) : exec .rdstat s = .next (s.answered s.fault (statusWord s)) := rfl

/-- Settles O3: RDSTAT is its own rule in every state, and by R81 no other command answers data with a fault. -/
theorem rdstatReturnsStatusWord : Obligations.RdstatReturnsStatusWord := by
  refine ⟨fun _ _ => decode_of_ignoresOperand rfl rfl, fun P ch a hlow hhigh =>
    ⟨_, decode_formatZ_reserved (op := 0x1#4) (fun _ _ => rfl) hlow (Nat.lt_succ_of_le hhigh) P a⟩,
    fun s => statusWord_eq s ▸ exec_rdstat s, fun i s t r h hr hrf hrd => ?_⟩
  obtain ⟨r', hr', -, hdata⟩ := responseCarriesFault i s t h
  obtain rfl := Option.some.inj (hr'.symm.trans hr)
  by_contra hi
  exact hrd (hdata hrf hi)

/-- SETVER in normal state with a version in range (R202). -/
theorem exec_setver_ok {s : State} {v : Nat} (hf : s.fault = 0) (hv : 1 ≤ v ∧ v ≤ 40) :
    exec (.setver v) s = .next { s with version := BitVec.ofNat 6 v, segv := false, rsp := some { f := 0, d := 0 } } :=
  (unlessFaulted_normal hf).trans (withVersion_ok hv)

theorem exec_setver_bad {s : State} {v : Nat} (hf : s.fault = 0) (hv : ¬ (1 ≤ v ∧ v ≤ 40)) :
    exec (.setver v) s = .next (s.raised .badOperand) :=
  (unlessFaulted_normal hf).trans (withVersion_bad hv)

/-- The six bits of VERSION hold every version in 1..40 (R26). -/
theorem toNat_ofNat_version {v : Nat} (hv : v ≤ 40) : (BitVec.ofNat 6 v).toNat = v := by
  rw [BitVec.toNat_ofNat, Nat.mod_eq_of_lt (by omega)]

/-- SETVER writes no 0, and the rest write no VERSION (R202). -/
theorem Effect.version_ne_zero {s t : State} {i : Instr} (h : Effect s i t) (hs : s.version ≠ 0) : t.version ≠ 0 := by
  cases h with
  | @setver v hv =>
    intro h0
    have hzero : v = 0 := (toNat_ofNat_version hv.2).symm.trans (congrArg BitVec.toNat h0)
    omega
  | _ => exact hs

/-- Settles O4: where VERSION changes it is by INIT or by an effect, and no effect makes it 0. -/
theorem setverWritesVersionInRange : Obligations.SetverWritesVersionInRange := by
  refine ⟨fun P v hv => decode_of_operand (i := .setver v) rfl hv,
    fun s v hf h1 h40 => ⟨BitVec.ofNat 6 v, toNat_ofNat_version h40, exec_setver_ok hf ⟨h1, h40⟩⟩,
    fun s v hf hv => exec_setver_bad hf hv, fun i s t h hs ht => ?_⟩
  have hchanged : t.version ≠ s.version := fun heq => hs (heq.symm.trans ht)
  exact (init_or_effect_of_ne State.version h rfl (fun _ => rfl) hchanged).resolve_right fun he => he.version_ne_zero hs ht

/-- The header of SETECL (R203). -/
theorem headerOf_setecl (e : BitVec 2) : headerOf (.setecl e) = BitVec.ofNat 12 (0x300 + e.toNat) := by
  revert e; decide

/-- Settles O5: in normal state SETECL is its own rule. -/
theorem seteclWritesLevelOnly : Obligations.SeteclWritesLevelOnly :=
  ⟨fun _ _ e => decode_of_ignoresOperand rfl (headerOf_setecl e), fun _ _ hf => unlessFaulted_normal hf⟩

/-- PL.CLR in normal state (R204). -/
theorem exec_plClr {s : State} (hf : s.fault = 0) :
    exec .plClr s = .next { s with plen := 0, pbuf := [], segv := false, rsp := some { f := 0, d := 0 } } :=
  unlessFaulted_normal hf

/-- Settles O6: in normal state PL.CLR is its own rule. -/
theorem plClrEmptiesPayload : Obligations.PlClrEmptiesPayload :=
  ⟨fun _ _ => decode_of_ignoresOperand rfl rfl, fun _ hf => exec_plClr hf⟩

/-- The header of PL.PUSH (R205). -/
theorem headerOf_plPush (c : Byte) : headerOf (.plPush c) = BitVec.ofNat 12 (0x500 + c.toNat) :=
  (ofNat_eq_mkHeader 0x5#4 c).symm

/-- The state after a successful PL.PUSH (R205). -/
abbrev afterPush (s : State) (c : Byte) : State :=
  { s with pbuf := s.pbuf.write s.plen c, plen := s.plen + 1, segv := false, rsp := some { f := 0, d := s.plen + 1 } }

/-- PL.PUSH in normal state into a buffer that is not full (R205). -/
theorem exec_plPush_ok {s : State} {c : Byte} (hf : s.fault = 0) (hroom : s.plen ≠ s.params.PMAX) :
    exec (.plPush c) s = .next (afterPush s c) :=
  (unlessFaulted_normal hf).trans (if_neg hroom)

theorem exec_plPush_full {s : State} {c : Byte} (hf : s.fault = 0) (hfull : s.plen = s.params.PMAX) :
    exec (.plPush c) s = .next (s.raised .payloadOverflow) :=
  (unlessFaulted_normal hf).trans (if_pos hfull)

/-- Settles O7: the memory after the push is the old one written at PLEN. -/
theorem plPushAppendsOneByte : Obligations.PlPushAppendsOneByte :=
  ⟨fun _ _ c => decode_of_ignoresOperand rfl (headerOf_plPush c),
    fun s c hf hroom => ⟨s.pbuf.write s.plen c, exec_plPush_ok hf hroom, Memory.read_write_same _ _ _,
      fun _ ha => Memory.read_write_other _ _ ha⟩,
    fun _ _ hf hfull => exec_plPush_full hf hfull⟩

end Sys2Proof.Machine
end

section
/-! The whole call QR "string", v (R92, R208): SETVER, PL.CLR, one PL.PUSH per byte and ENCODE.AUTO, issued as encoded commands. -/

namespace Sys2Proof.Machine

/-- The inputs by which the host issues a sequence of commands, oldest first (R82). -/
def issued (is : List Instr) : List Input := is.map fun i => .command (encode i)

/-- One step of a run (R62). -/
theorem run_succ_of_step {s t : State} (h : step s = .next t) (k : Nat) : core.run (k + 1) s = core.run k t := by
  have hstep : core.step s = .next t := h
  simp only [Host.Core.run, hstep]

/-- The first of the issued commands is taken and run, and the rest stay issued (R62). -/
theorem run_issued_cons {i : Instr} {is : List Instr} {s t : State} (hq : s.queue = issued (i :: is)) (hwf : i.wf s.params = true)
    (h : exec i { s with queue := issued is } = .next t) (k : Nat) :
    core.run (k + 1) s = core.run k t ∧ t.queue = issued is :=
  ⟨run_succ_of_step ((step_command hq (decodeEncodeRoundTrip _ _ hwf)).trans h) k, exec_queue_eq h⟩

/-- A push puts its byte at the end of the payload string (R14, R205). -/
theorem payload_afterPush {s : State} {p : List Byte} (h : s.payload = some p) (c : Byte) :
    (afterPush s c).payload = some (p ++ [c]) := by
  have hold : lookupAll (s.pbuf.write s.plen c).read (List.range s.plen) = some p := by
    rw [← h, State.payload]
    exact lookupAll_congr fun a ha => Memory.read_write_other _ _ (List.mem_range.1 ha).ne
  simp [State.payload, List.range_succ, lookupAll_append, lookupAll_cons, hold]

/-- On the way to ENCODE.AUTO: normal state, the parameters P, VERSION v, the payload p, and `is` still issued. -/
structure Loaded (P : Params) (v : Nat) (p : List Byte) (is : List Instr) (t : State) : Prop where
  params : t.params = P
  normal : t.fault = 0
  version : t.version.toNat = v
  payload : t.payload = some p
  queue : t.queue = issued is

/-- A PL.PUSH that fits puts its byte at the end of the payload. -/
theorem Loaded.run_push {P : Params} {v : Nat} {p : List Byte} {c : Byte} {is : List Instr} {t : State}
    (ht : Loaded P v p (.plPush c :: is) t) (hroom : p.length < P.PMAX) (k : Nat) :
    ∃ u : State, core.run (k + 1) t = core.run k u ∧ Loaded P v (p ++ [c]) is u := by
  obtain ⟨rfl, hf, hv, hp, hq⟩ := ht
  have hplen : t.plen ≠ t.params.PMAX := by
    rw [← payload_length hp]
    exact hroom.ne
  obtain ⟨hrun, hq'⟩ := run_issued_cons hq rfl (exec_plPush_ok (s := { t with queue := issued is }) hf hplen) k
  exact ⟨_, hrun, rfl, hf, hv, payload_afterPush (s := { t with queue := issued is }) hp c, hq'⟩

/-- One PL.PUSH per byte puts the whole string there, when it fits. -/
theorem Loaded.run_pushes {P : Params} {v : Nat} {old new : List Byte} {is : List Instr} {t : State}
    (ht : Loaded P v old (new.map .plPush ++ is) t) (hroom : old.length + new.length ≤ P.PMAX) (k : Nat) :
    ∃ u : State, core.run (k + new.length) t = core.run k u ∧ Loaded P v (old ++ new) is u := by
  induction new generalizing old t with
  | nil => exact ⟨t, rfl, by rwa [List.append_nil]⟩
  | cons c new ih =>
    rw [List.length_cons] at hroom
    obtain ⟨t', hrun, ht'⟩ := ht.run_push (by omega) (k + new.length)
    obtain ⟨u, hrun', hu⟩ := ih ht' (by rw [List.length_append, List.length_singleton]; omega)
    exact ⟨u, hrun.trans hrun', by rwa [List.append_assoc] at hu⟩

/-- SETVER and PL.CLR, from any normal state: VERSION is v and the payload is empty. -/
theorem run_setver_plClr {v : Nat} {is : List Instr} {s : State} (hf : s.fault = 0) (hv : 1 ≤ v ∧ v ≤ 40) (hW : 16 ≤ s.params.W)
    (hq : s.queue = issued (.setver v :: .plClr :: is)) (k : Nat) :
    ∃ u : State, core.run (k + 2) s = core.run k u ∧ Loaded s.params v [] is u := by
  have hfits : (Instr.setver v).wf s.params = true :=
    decide_eq_true (by have := Nat.pow_le_pow_right (n := 2) (by decide) hW; omega)
  obtain ⟨hrun, hq1⟩ := run_issued_cons hq hfits (exec_setver_ok hf hv) (k + 1)
  obtain ⟨hrun', hq2⟩ := run_issued_cons hq1 rfl (exec_plClr hf) k
  exact ⟨_, hrun.trans hrun', rfl, hf, toNat_ofNat_version hv.2, rfl, hq2⟩

/-- ENCODE.AUTO, the last command issued, ends in the segment of the narrowest mode (R188). -/
theorem Loaded.run_encodeAuto {P : Params} {v : Nat} {p : List Byte} {t : State} (ht : Loaded P v p [.encodeAuto] t) (hv : 1 ≤ v)
    (hW : 0 < P.W) (hroom : segmentLength (narrowestMode p) v p.length ≤ P.maxBits) :
    ∃ st, core.run 1 t = .next (afterSegment { t with queue := [] } (narrowestMode p) st) ∧
      st.blen = segmentLength (narrowestMode p) v p.length ∧ streamBits t.params.W st = some (segmentBits (narrowestMode p) v p) := by
  obtain ⟨rfl, hf, rfl, hp, hq⟩ := ht
  rw [payload_length hp] at hroom ⊢
  have hset : t.version ≠ 0 := fun h0 => by
    rw [h0] at hv
    exact absurd hv (by decide)
  obtain ⟨st, hexec, hlen, -, hbits⟩ := (encodes_narrowestMode p).exec_ok (s := { t with queue := issued [] }) hf hset hW hp
    (meetsAlphabet_narrowestMode p) hroom
  obtain ⟨hrun, -⟩ := run_issued_cons hq rfl hexec 0
  exact ⟨st, hrun, hlen, hbits⟩

/-- Settles O38: SETVER, PL.CLR and the pushes load VERSION and the payload, from which ENCODE.AUTO makes the segment. -/
theorem wholeCallProducesSegment : Obligations.WholeCallProducesSegment := by
  intro s p v hs hf h1 h40 hlen hroom
  have hfuel : p.length + 3 = 1 + p.length + 2 := by omega
  obtain ⟨t1, hcleared, hempty⟩ := run_setver_plClr (s := { s with queue := issued (pseudoQr p v) }) hf ⟨h1, h40⟩
    (sixteen_le_width_of_allowed hs.params) rfl (1 + p.length)
  obtain ⟨t2, hpushed, hloaded⟩ := hempty.run_pushes (by rwa [List.length_nil, Nat.zero_add]) 1
  rw [List.nil_append] at hloaded
  obtain ⟨st, hencoded, hblen, hbits⟩ := hloaded.run_encodeAuto h1 (width_pos_of_allowed hs.params) hroom
  obtain ⟨-, hnormal, hversion, hpayload, -⟩ := hloaded
  rw [hfuel]
  refine ⟨_, hcleared.trans (hpushed.trans hencoded), hnormal, rfl, hversion, hpayload, segmentCode_toNat _, hbits, ?_, rfl⟩
  rw [← hblen]

end Sys2Proof.Machine
end

section
/-! A raise changes FAULT, SEGV and the response alone, with a code of its command's row in R221 (R224, R225). -/

namespace Sys2Proof.Machine

/-- The classifier's mode meets no alphabet fault (R138). -/
theorem packetsOf_classifyBytes_ne_error (p : List Byte) (code : FaultCode) : packetsOf (classifyBytes p) p ≠ .error code := by
  intro herr
  obtain ⟨ps, hok⟩ := exists_packetsOf_classifyBytes p
  rw [hok] at herr
  cases herr

/-- The alphabet fault of a mode is in the row of its ENC command (R162, R166). -/
theorem Appends.mayRaise_alphabet {i : Instr} {m : SegmentMode} {p : List Byte} {code : FaultCode} (hi : Appends i m)
    (herr : packetsOf m p = .error code) : mayRaise i (faultBits code) = true := by
  obtain ⟨rfl, -, rfl⟩ | ⟨rfl, -, rfl⟩ := packetsOf_error herr <;> cases hi <;> rfl

/-- The alphabet fault of a mode is in the row of the ENCODE command that names it; ENCODE.AUTO meets none (R188). -/
theorem Encodes.mayRaise_alphabet {i : Instr} {m : SegmentMode} {p : List Byte} {code : FaultCode} (hi : Encodes p i m)
    (herr : packetsOf m p = .error code) : mayRaise i (faultBits code) = true := by
  cases hi with
  | auto => exact absurd herr (packetsOf_classifyBytes_ne_error p code)
  | numeric | alphanumeric | byteText => obtain ⟨hm, -, rfl⟩ | ⟨hm, -, rfl⟩ := packetsOf_error herr <;> cases hm <;> rfl

/-- Every fault a command raises is in its row of R221. -/
theorem Raises.mayRaise_eq_true {s : State} {i : Instr} {code : FaultCode} (h : Raises s i code) :
    mayRaise i (faultBits code) = true := by
  cases h with
  | widthVersion hi => cases hi <;> rfl
  | encAlphabet hi _ herr => exact hi.mayRaise_alphabet herr
  | encNoRoom hi => cases hi <;> rfl
  | encodeUnset hi => cases hi <;> rfl
  | encodeAlphabet hi _ _ herr => exact hi.mayRaise_alphabet herr
  | encodeNoRoom hi => cases hi <;> rfl
  | _ => rfl

/-- Settles O39: from normal state only a raise makes FAULT other than 0, and `State.raised` is the state R224 lists. -/
theorem faultsArePrecise : Obligations.FaultsArePrecise := by
  intro i s t hf h hne
  cases exec_cases h with
  | restored _ ht => exact absurd (by rw [ht]; rfl) hne
  | refused hf' => exact absurd hf hf'
  | raised _ code hr ht => subst ht; exact ⟨rfl, hr.mayRaise_eq_true⟩
  | done _ he => exact absurd (he.fault_eq.trans hf) hne

end Sys2Proof.Machine
end

section
/-! A host that keeps to R235 meets none of the checks that raise a fault. -/

namespace Sys2Proof.Machine

/-- With the given parameters the segment of every mode fits MAXBITS (R8). -/
theorem segmentLength_le_maxBits_of_given {s : State} (hparams : s.params = { W := 64, NW := 2048, PMAX := 8192 })
    (hpayload : PayloadWf s) (m : SegmentMode) : segmentLength m s.version.toNat s.plen ≤ s.params.maxBits := by
  have hlen : s.plen ≤ 8192 := by simpa [hparams] using hpayload.1
  have hmax : s.params.maxBits = 131072 := by rw [hparams]; rfl
  have := segmentLength_le m s.version.toNat s.plen
  omega

/-- Where the segment of every mode fits MAXBITS, a correct host sends no command whose check fails. -/
theorem Raises.correctHostSends_eq_false {s : State} {i : Instr} {code : FaultCode} (h : Raises s i code)
    (hfit : ∀ m, segmentLength m s.version.toNat s.plen ≤ s.params.maxBits) : correctHostSends s i = false := by
  cases h with
  | version hv => exact decide_eq_false hv
  | bufferFull hfull => exact decide_eq_false hfull.not_lt
  | noRoomBit hroom => exact decide_eq_false hroom.not_ge
  | width hwidth => exact decide_eq_false fun ⟨hle, _⟩ => absurd hle hwidth.not_ge
  | noRoomBits hroom => exact decide_eq_false fun ⟨_, hle⟩ => absurd hle hroom.not_ge
  | index hj => exact decide_eq_false hj.not_gt
  | widthVersion hi hv => cases hi <;> exact decide_eq_false hv
  | encAlphabet hi => cases hi <;> rfl
  | encNoRoom hi => cases hi <;> rfl
  | encodeUnset hi hv =>
    cases hi with
    | auto => exact decide_eq_false (not_not_intro hv)
    | _ => rfl
  | encodeAlphabet hi _ _ herr =>
    cases hi with
    | auto => exact absurd herr (packetsOf_classifyBytes_ne_error _ _)
    | _ => rfl
  | encodeNoRoom _ _ _ _ hroom => exact absurd (hfit _) (by rw [segmentLength_eq]; exact hroom.not_ge)
  | noEntry | encKanji | encodeKanji => rfl

/-- Settles O44: every command completes on a well-formed state, and no check of a command the host sends fails. -/
theorem correctHostMeetsNoFault : Obligations.CorrectHostMeetsNoFault := by
  intro i s hs hf hparams hsends
  obtain ⟨t, h⟩ := running_exec i (width_pos_of_allowed hs.params) hs.stream hs.payload
  refine ⟨t, h, ?_⟩
  cases exec_cases h with
  | restored _ ht => rw [ht]; rfl
  | refused hf' => exact absurd hf hf'
  | raised _ code hr =>
    have hnot := hr.correctHostSends_eq_false (segmentLength_le_maxBits_of_given hparams hs.payload)
    cases hsends.symm.trans hnot
  | done _ he => exact he.fault_eq.trans hf

end Sys2Proof.Machine
end

section
/-! Refusal in fault state (R227), the order of the checks (R228), and hardware reset (R260, R262). -/

namespace Sys2Proof.Machine

/-- In fault state every command but INIT and RDSTAT is refused by the prologue it begins with (R226, R227). -/
theorem exec_faulted {i : Instr} {s : State} (hf : s.fault ≠ 0) (hinit : i ≠ .init) (hrdstat : i ≠ .rdstat) :
    exec i s = .next s.refusedInFault := by
  cases i with
  | init => exact absurd rfl hinit
  | rdstat => exact absurd rfl hrdstat
  | _ => exact unlessFaulted_faulted hf

/-- Settles O40: legal commands and illegal headers begin with the same prologue. -/
theorem faultStateRefusesCommands : Obligations.FaultStateRefusesCommands := by
  refine ⟨fun i s hf hinit hrdstat => exec_faulted hf hinit hrdstat, fun s c rest hf hq hrow => ?_⟩
  rw [step_illegal hq hrow]
  exact unlessFaulted_faulted hf

/-- Settles O42, each pair of checks by the lemma of the one that comes first, which asks nothing about the later one. -/
theorem checksComeInPriorityOrder : Obligations.ChecksComeInPriorityOrder := by
  refine fun s hf => ⟨unlessFaulted_normal hf, fun hv => ⟨?auto, ?numeric, ?alphanumeric, ?byteText⟩,
    fun width v hwidth => exec_bsBits_bad hf hwidth, fun p hp => ⟨fun hbad => ?encN, fun hbad => ?encA⟩⟩
  case auto | numeric | alphanumeric | byteText => exact encodeSegment_unset hf hv
  case encN => exact appendPayload_alphabet hf hp (packetsOf_numeric_error hbad)
  case encA => exact appendPayload_alphabet hf hp (packetsOf_alphanumeric_of_not_meetsAlphabet hbad)

/-- A reset at the head of the queue is taken, whatever command it abandons (R262). -/
theorem step_reset {s : State} {inFlight : Option Command} {rest : List Input} (hq : s.queue = .reset inFlight :: rest) :
    step s = .next ({ s with queue := rest } : State).hardReset := by
  simp only [step, hq]

/-- Settles O1: hardware reset keeps the parameters and the rest of the queue alone. -/
theorem hardwareResetGivesResetState : Obligations.HardwareResetGivesResetState :=
  ⟨⟨rfl, rfl, rfl, rfl, rfl, rfl, rfl, rfl, rfl⟩, fun _ _ _ hq => step_reset hq⟩

end Sys2Proof.Machine
end
